-- ==== Sys2Proof/Word.lean ====
section
/-! DEFINITION. The widths of the checker's values (00_scope R5). -/

namespace Sys2Proof

/-- A 32-bit command word or register value (00_scope R5: "command word width", "register width"). -/
abbrev Word := BitVec 32

/-- A 16-bit CRC value (00_scope R5: `CRC_WIDTH`). -/
abbrev Crc16 := BitVec 16

/-- A data byte (00_scope R5: "data byte width"). -/
abbrev Byte := BitVec 8

end Sys2Proof
end

