-- ==== Sys2Proof/Syntax.lean ====
section
/-! DEFINITION. The six commands of the checker (30_encoding R47) and the fields of the one command
format (30_encoding R46). -/

namespace Sys2Proof

/-- One constructor per row of spec/opcode_table.json, with the operand 30_encoding R48 gives it. -/
inductive Instr where
  /-- 40_crc_ops R65. -/
  | nop
  /-- 40_crc_ops R66. -/
  | init
  /-- 40_crc_ops R67: `v = w[15:0]`. -/
  | load (v : Crc16)
  /-- 40_crc_ops R68: `b = w[7:0]`. -/
  | update (b : Byte)
  /-- 40_crc_ops R69. -/
  | finish
  /-- 40_crc_ops R70: `t = w[15:0]`. -/
  | check (t : Crc16)
deriving DecidableEq, Repr

/-- The command format of 30_encoding R46: every command word is OP, RSV, IMM16. -/
structure CommandWord where
  /-- `w[31:28]` -/
  op : BitVec 4
  /-- `w[27:16]` -/
  rsv : BitVec 12
  /-- `w[15:0]` -/
  imm : BitVec 16
deriving DecidableEq, Repr

/-- The opcodes and operands of 30_encoding R47 and R48, as the three fields. -/
def Instr.fields : Instr → CommandWord
  | .nop      => ⟨0x0#4, 0#12, 0#16⟩
  | .init     => ⟨0x1#4, 0#12, 0#16⟩
  | .load v   => ⟨0x2#4, 0#12, v⟩
  | .update b => ⟨0x3#4, 0#12, b.setWidth 16⟩
  | .finish   => ⟨0x4#4, 0#12, 0#16⟩
  | .check t  => ⟨0x5#4, 0#12, t⟩

end Sys2Proof
end

