-- ==== Sys2Proof/WellFormed.lean ====
section
/-! DEFINITION. What makes a command word well formed (30_encoding R49, R50), check by check. -/

namespace Sys2Proof

/-- 30_encoding R49 (a): RSV must be zero in every command. -/
def CommandWord.rsvOk (c : CommandWord) : Bool := c.rsv == 0#12

/-- 30_encoding R50: OP `0x6` to `0xF` is reserved. -/
def CommandWord.opOk (c : CommandWord) : Bool := decide (c.op.toNat < 6)

/-- 30_encoding R49 (b): IMM16 must be zero in NOP, INIT and FINISH. -/
def CommandWord.noOperandOk (c : CommandWord) : Bool :=
  !(c.op == 0x0#4 || c.op == 0x1#4 || c.op == 0x4#4) || c.imm == 0#16

/-- 30_encoding R49 (c): `IMM16[15:8]` must be zero in UPDATE. -/
def CommandWord.byteOperandOk (c : CommandWord) : Bool :=
  !(c.op == 0x3#4) || decide (c.imm.toNat < 256)

/-- A word that no condition of 30_encoding R49 or R50 makes illegal. -/
def CommandWord.wellFormed (c : CommandWord) : Bool :=
  c.rsvOk && c.opOk && c.noOperandOk && c.byteOperandOk

/-- A command is well formed when the word it stands for is. Operands are typed by their width
(30_encoding R48: every value of the width is legal), so every `Instr` is. -/
def Instr.wellFormed (i : Instr) : Bool := i.fields.wellFormed

end Sys2Proof
end

