-- ==== Sys2Proof/Decode.lean ====
section
/-! DEFINITION. Decoding a command word (30_encoding R51), total on every 32-bit word, and encoding a
command (30_encoding R46 to R48, R54). -/

namespace Sys2Proof

/-- The fields of a word (30_encoding R46). -/
def CommandWord.ofWord (w : Word) : CommandWord :=
  { op := w.extractLsb' 28 4, rsv := w.extractLsb' 16 12, imm := w.extractLsb' 0 16 }

/-- The word with the given fields (30_encoding R46). -/
def CommandWord.toWord (c : CommandWord) : Word := c.op ++ c.rsv ++ c.imm

/-- 30_encoding R51 on the three fields; `none` is `Illegal`. -/
def decodeFields (c : CommandWord) : Option Instr :=
  if c.rsv ≠ 0#12 then none
  else match c.op.toNat with
    | 0 => if c.imm = 0#16 then some .nop else none
    | 1 => if c.imm = 0#16 then some .init else none
    | 2 => some (.load c.imm)
    | 3 => if c.imm.extractLsb' 8 8 = 0#8 then some (.update (c.imm.extractLsb' 0 8)) else none
    | 4 => if c.imm = 0#16 then some .finish else none
    | 5 => some (.check c.imm)
    | _ => none

/-- The decoder of 30_encoding R51. A command is the 32-bit value the host wrote, whatever the bus
byte order (20_memory R37), so the decoder takes the word and not its bytes (log entry 9). -/
def decode (w : Word) : Option Instr := decodeFields (CommandWord.ofWord w)

/-- The word of a command (30_encoding R47, R48, R54). -/
def encode (i : Instr) : Word := i.fields.toWord

/-- What the decoder reads from a row's bits, numbered as spec/opcode_table.json numbers them. Every
command is one 32-bit word (30_encoding R53), so bits above `nbits` are 0 and a longer row is refused. -/
def decodeTableWord (nbits w : Nat) : Option Instr :=
  if nbits ≤ 32 then decode (BitVec.ofNat 32 (w % 2 ^ nbits)) else none

/-- One row of the opcode table: a word belongs to it when its bits under `mask` are `pattern`. -/
structure OpcodeRow where
  mnemonic : String
  pattern : Word
  mask : Word
deriving DecidableEq, Repr

/-- spec/opcode_table.json, row by row. The decoder does not use it: Obligations relates the two. -/
def opcodeTable : List OpcodeRow :=
  [ ⟨"NOP",    0x00000000#32, 0xFFFFFFFF#32⟩,
    ⟨"INIT",   0x10000000#32, 0xFFFFFFFF#32⟩,
    ⟨"LOAD",   0x20000000#32, 0xFFFF0000#32⟩,
    ⟨"UPDATE", 0x30000000#32, 0xFFFFFF00#32⟩,
    ⟨"FINISH", 0x40000000#32, 0xFFFFFFFF#32⟩,
    ⟨"CHECK",  0x50000000#32, 0xFFFF0000#32⟩ ]

/-- A word belongs to a row of the table. -/
def OpcodeRow.covers (r : OpcodeRow) (w : Word) : Bool := w &&& r.mask == r.pattern

/-- The mnemonic of a command (30_encoding R47). -/
def Instr.mnemonic : Instr → String
  | .nop      => "NOP"
  | .init     => "INIT"
  | .load _   => "LOAD"
  | .update _ => "UPDATE"
  | .finish   => "FINISH"
  | .check _  => "CHECK"

end Sys2Proof
end

