-- ==== Sys2Proof/Machine/Crc.lean ====
section
/-! DEFINITION. The arithmetic of the checker (40_crc_ops R60 to R64, R72). -/

namespace Sys2Proof.Machine

/-- `POLY` (40_crc_ops R60). -/
def poly : Crc16 := 0x1021#16

/-- `INIT_VALUE` (00_scope R5, 92_eei_decisions D4). -/
def initValue : Crc16 := 0x0000#16

/-- The `AUGMENT_BYTES` zero bytes `compute` appends (00_scope R5, 40_crc_ops R63). -/
def augment : List Byte := [0x00#8, 0x00#8]

/-- One turn of the loop of 40_crc_ops R61: shift left, the data bit enters at bit 0, and `POLY` is
XORed in when the bit that left bit 15 was 1. -/
def shiftIn (r : Crc16) (bit : Bool) : Crc16 :=
  let fb := r.getLsbD 15
  let r := (r <<< 1) ||| (BitVec.ofBool bit).setWidth 16
  if fb then r ^^^ poly else r

/-- The bits of a data byte in the order the checker takes them: bit 7 first (20_memory R36). -/
def bitsMsbFirst (b : Byte) : List Bool :=
  [7, 6, 5, 4, 3, 2, 1, 0].map b.getLsbD

/-- The single-byte step `update(crc, byte)`, the augmented shift register (40_crc_ops R61). -/
def update (crc : Crc16) (b : Byte) : Crc16 := (bitsMsbFirst b).foldl shiftIn crc

/-- `fold(c, d)` (00_scope R7): the bytes of `d` in order (20_memory R35). -/
def fold (c : Crc16) : List Byte → Crc16
  | [] => c
  | b :: d => fold (update c b) d

/-- `compute(d)` (40_crc_ops R63): the zero bytes are appended once, here (90_conflicts C7). -/
def compute (d : List Byte) : Crc16 := fold initValue (d ++ augment)

end Sys2Proof.Machine
end

