-- ==== Sys2Proof/Machine/State.lean ====
section
/-! DEFINITION. The checker's state (10_state R10), the events that act on it, and the state after
reset (70_reset R120). -/

namespace Sys2Proof.Machine

/-- Who issues an access (00_scope R2). -/
inductive Master where
  /-- The one host of 00_scope R2. -/
  | host
  /-- Any other master: outside the spec, refused (60_exceptions R111). -/
  | other (id : Nat)
deriving DecidableEq, Repr

/-- A register read, or a register write with its data (00_scope R7: `RegRead`, `RegWrite`). -/
inductive AccessKind where
  | read
  | write (data : Word)
deriving DecidableEq, Repr

/-- One bus access. `offset` is its address minus `CRC_BASE` (00_scope R7), negative for an access
that starts below the window (log entry 3); `bytes` is its size. -/
structure Access where
  master : Master
  offset : Int
  bytes : Nat
  kind : AccessKind
deriving DecidableEq, Repr

/-- What asserts the one reset of 70_reset R120. A bank-swap reset is a system reset (R121).
Log entry 6. -/
inductive ResetCause where
  | powerOn
  | systemReset
deriving DecidableEq, Repr

/-- What the outside world does to the checker (00_scope R2: a host access or a reset, nothing else). -/
inductive Event where
  | access (a : Access)
  | reset (cause : ResetCause)
deriving DecidableEq, Repr

/-- Why a step faults. No command and no word written to CMD does (60_exceptions R100, R102). -/
inductive Fault where
  /-- Raised by an access none of whose bytes lies in the window: the spec has no other address and no
  other device (20_memory R30, 60_exceptions R110). Safe: the model stops (log entry 5). -/
  | outsideWindow
deriving DecidableEq, Repr

/-- Why there is no step. -/
inductive Refusal where
  /-- Raised by an arm of `exec` that has no meaning yet; no arm is left so. Safe. -/
  | notModelled (mnemonic : String)
  /-- Raised by an access that 20_memory R31 does not admit (byte, halfword, any other size, offset not
  a multiple of 4): "A model gives them no step: the host is stuck". Safe. -/
  | accessNotAdmitted
  /-- Raised by an access of a second master: "a model refuses it" (00_scope R2, 60_exceptions R111). Safe. -/
  | secondMaster
  /-- Raised when no event is pending: "a run ends when the host stops issuing" (70_reset R127). Safe. -/
  | hostStopped
deriving DecidableEq, Repr

/-- The checker's five pieces of state (10_state R10), its bits as Booleans (log entry 7), and the model's
two records of the outside. -/
structure State where
  /-- `CRC` (10_state R11). -/
  crc : Crc16
  /-- `MATCH` (10_state R12). -/
  matched : Bool
  /-- `CHECKED` (10_state R13). -/
  checked : Bool
  /-- `ERR` (10_state R15). -/
  err : Bool
  /-- `ERRCMD` (10_state R16). -/
  errcmd : Word
  /-- The model's own: the events still to come, next first, in the order of 20_memory R38 (log entry 1). -/
  pending : List Event
  /-- The model's own: the values the host's reads returned, newest first (log entry 2). -/
  readLog : List Word
deriving DecidableEq, Repr

/-- The machine right after reset: "All five reset values are zero" (70_reset R120). Nothing is pending
and nothing has been read (log entries 1 and 2). -/
def State.reset : State :=
  { crc := 0#16, matched := false, checked := false, err := false, errcmd := 0#32,
    pending := [], readLog := [] }

end Sys2Proof.Machine
end

