-- ==== Sys2Proof/Machine/Flags.lean ====
section
/-! DEFINITION. The status bits: what sets and clears them (10_state R12, R13, R15) and the STATUS
register they are read through (10_state R21). -/

namespace Sys2Proof.Machine

/-- `MATCH <- 0; CHECKED <- 0`, which every command that writes CRC does (40_crc_ops R66 to R69). -/
def clearCheck (s : State) : State := { s with matched := false, checked := false }

/-- `MATCH <- m; CHECKED <- 1`, which CHECK does (40_crc_ops R70). -/
def recordCheck (m : Bool) (s : State) : State := { s with matched := m, checked := true }

/-- A flag as a word, in bit 0. -/
def flagWord (b : Bool) : Word := (BitVec.ofBool b).setWidth 32

/-- STATUS (10_state R21): `(ERR << 2) | (CHECKED << 1) | MATCH`; bits 31:3 read 0. -/
def statusWord (s : State) : Word :=
  (flagWord s.err <<< 2) ||| (flagWord s.checked <<< 1) ||| flagWord s.matched

end Sys2Proof.Machine
end

