-- ==== Sys2Proof/Config.lean ====
section
/-! DEFINITION. The one parameter the spec leaves OPEN: the base address of the register window
(00_scope R5; 92_eei_decisions, OPEN parameters). POLY, INIT_VALUE and the other fixed parameters
stand in Machine/Crc.lean. -/

namespace Sys2Proof

/-- The base address counted in words: no value of it is known to any proof (log entry 3). -/
opaque Config.crcBaseWords : Nat

/-- `CRC_BASE` (20_memory R30): any multiple of 4, chosen by the platform. -/
def Config.crcBase : Nat := 4 * Config.crcBaseWords

/-- The window is 16 bytes (10_state R18). -/
def Config.windowBytes : Nat := 16

end Sys2Proof
end

