-- ==== Sys2Proof/Machine/Operands.lean ====
section
/-! DEFINITION. How an access names a register (10_state R18, 20_memory R30, R31) and how the host
assembles the CHECK operand from the wire (20_memory R34). -/

namespace Sys2Proof.Machine

/-- The four registers of the window (10_state R18). -/
inductive WindowReg where
  | cmd
  | crc
  | status
  | errcmd
deriving DecidableEq, Repr

/-- The offset of a register (10_state R18). -/
def WindowReg.offset : WindowReg → Int
  | .cmd => 0x0
  | .crc => 0x4
  | .status => 0x8
  | .errcmd => 0xC

/-- The register at an offset, which bits [3:2] of the offset select (20_memory R30, log entry 4). -/
def WindowReg.ofOffset (off : Int) : WindowReg :=
  match (off / 4 % 4).toNat with
  | 0 => .cmd
  | 1 => .crc
  | 2 => .status
  | _ => .errcmd

/-- Some byte of the access lies in the 16-byte window (20_memory R30). -/
def Access.touchesWindow (a : Access) : Bool :=
  decide (a.offset < Config.windowBytes) && decide (0 < a.offset + a.bytes)

/-- 20_memory R31: "Every admitted host access is a 32-bit access at a window offset that is a multiple
of 4 (`0x0`, `0x4`, `0x8`, `0xC`)". -/
def Access.admitted (a : Access) : Bool :=
  a.bytes == 4 && decide (0 ≤ a.offset) && decide (a.offset < Config.windowBytes) &&
    a.offset % 4 == 0

/-- The host's `RegRead(off)` (00_scope R7). -/
def Access.regRead (off : Int) : Access := ⟨.host, off, 4, .read⟩

/-- The host's `RegWrite(off, v)` (00_scope R7). -/
def Access.regWrite (off : Int) (v : Word) : Access := ⟨.host, off, 4, .write v⟩

/-- The host's read of a register: `RD CRC` is `Event.rd .crc` (30_encoding R54). -/
def Event.rd (r : WindowReg) : Event := .access (.regRead r.offset)

/-- The host's write of a register. -/
def Event.wr (r : WindowReg) (v : Word) : Event := .access (.regWrite r.offset v)

/-- The host's write of a command word to CMD (10_state R19). -/
def Event.cmdWrite (w : Word) : Event := Event.wr .cmd w

/-- The access a master's bus access at `addr` is, seen from the window (20_memory R30). -/
def Access.ofBus (m : Master) (addr bytes : Nat) (k : AccessKind) : Access :=
  ⟨m, (addr : Int) - (Config.crcBase : Int), bytes, k⟩

/-- The host goes on to issue one more event, after all those pending (20_memory R38: issue order). -/
def State.issue (e : Event) (s : State) : State := { s with pending := s.pending ++ [e] }

/-- The transmitted CRC `{crc-hi, crc-lo}` (20_memory R34): high byte first (90_conflicts C1). -/
def wireCrc (hi lo : Byte) : Crc16 := (hi.setWidth 16 <<< 8) ||| lo.setWidth 16

end Sys2Proof.Machine
end

