-- ==== Sys2Proof/Machine/Ops.lean ====
section
/-! DEFINITION. The shared operations over the state: writing CRC, the error entry, reset, and reading a
register. There is no return from the error entry (60_exceptions R103): only `applyReset` clears ERR. -/

namespace Sys2Proof.Machine

/-- `CRC <- v; MATCH <- 0; CHECKED <- 0` (40_crc_ops R66 to R69). -/
def writeCrc (v : Crc16) (s : State) : State := { clearCheck s with crc := v }

/-- `raise IllegalCommand(w)` (60_exceptions R102), the one error entry: the first illegal word since
reset is kept, ERR is set, and CRC, MATCH and CHECKED are unchanged. -/
def raiseIllegalCommand (w : Word) (s : State) : State :=
  { s with errcmd := if s.err then s.errcmd else w, err := true }

/-- The one reset (70_reset R120): every piece of the checker's state takes its reset value, whatever
asserted it. What is still to come from outside, and what the host has read, is not the checker's (log entry 6). -/
def applyReset (_cause : ResetCause) (s : State) : State :=
  { State.reset with pending := s.pending, readLog := s.readLog }

/-- What a register reads (10_state R18 to R22, 20_memory R33). -/
def readValue (r : WindowReg) (s : State) : Word :=
  match r with
  | .cmd => 0x00000000#32
  | .crc => s.crc.setWidth 32
  | .status => statusWord s
  | .errcmd => s.errcmd

/-- A register read: the value goes to the host, and there is no other effect (20_memory R32). -/
def regRead (r : WindowReg) (s : State) : State := { s with readLog := readValue r s :: s.readLog }

end Sys2Proof.Machine
end

