-- ==== Sys2Proof/Machine/Commands.lean ====
section
/-! DEFINITION. The meaning of each command (40_crc_ops R65 to R70). Each is total: a next state for
every operand and every state. -/

namespace Sys2Proof.Machine

/-- NOP (40_crc_ops R65): no state changes. -/
def execNop (s : State) : Host.Outcome State Fault Refusal := .next s

/-- INIT (40_crc_ops R66). -/
def execInit (s : State) : Host.Outcome State Fault Refusal := .next (writeCrc initValue s)

/-- LOAD (40_crc_ops R67). -/
def execLoad (v : Crc16) (s : State) : Host.Outcome State Fault Refusal := .next (writeCrc v s)

/-- UPDATE (40_crc_ops R68). -/
def execUpdate (b : Byte) (s : State) : Host.Outcome State Fault Refusal :=
  .next (writeCrc (update s.crc b) s)

/-- FINISH (40_crc_ops R69): the two zero bytes of `compute`. -/
def execFinish (s : State) : Host.Outcome State Fault Refusal :=
  .next (writeCrc (update (update s.crc 0x00#8) 0x00#8) s)

/-- CHECK (40_crc_ops R70): exact 16-bit equality; CRC is unchanged. -/
def execCheck (t : Crc16) (s : State) : Host.Outcome State Fault Refusal :=
  .next (recordCheck (s.crc == t) s)

end Sys2Proof.Machine
end

