-- ==== Sys2Proof/Machine/Dispatch.lean ====
section
/-! DEFINITION. One arm per command (30_encoding R51: every legal word "executes as its rule in
40_crc_ops.md"). -/

namespace Sys2Proof.Machine

def exec (i : Instr) (s : State) : Host.Outcome State Fault Refusal :=
  match i with
  | .nop => Sys2Proof.Machine.execNop s
  | .init => Sys2Proof.Machine.execInit s
  | .load v => Sys2Proof.Machine.execLoad v s
  | .update b => Sys2Proof.Machine.execUpdate b s
  | .finish => Sys2Proof.Machine.execFinish s
  | .check t => Sys2Proof.Machine.execCheck t s

end Sys2Proof.Machine
end

