-- ==== Sys2Proof/Machine/Perform.lean ====
section
/-! DEFINITION. Performing one event: a register access (20_memory R30 to R33) or a reset
(70_reset R120). -/

namespace Sys2Proof.Machine

/-- A word written to CMD (10_state R19): a legal command executes, an illegal word takes the error
entry (30_encoding R51). -/
def issueCommand (w : Word) (s : State) : Host.Outcome State Fault Refusal :=
  match decode w with
  | some i => exec i s
  | none => .next (raiseIllegalCommand w s)

/-- A register write: CMD issues the command, the other three registers ignore it (20_memory R33). -/
def regWrite (r : WindowReg) (w : Word) (s : State) : Host.Outcome State Fault Refusal :=
  match r with
  | .cmd => issueCommand w s
  | .crc => .next s
  | .status => .next s
  | .errcmd => .next s

/-- One access. It is the host's and admitted (00_scope R2, 20_memory R31), or there is no step. -/
def performAccess (a : Access) (s : State) : Host.Outcome State Fault Refusal :=
  if a.touchesWindow then
    match a.master with
    | .other _ => .refused .secondMaster
    | .host =>
      if a.admitted then
        match a.kind with
        | .read => .next (regRead (WindowReg.ofOffset a.offset) s)
        | .write w => regWrite (WindowReg.ofOffset a.offset) w s
      else .refused .accessNotAdmitted
  else .fault .outsideWindow

/-- One event. -/
def performEvent (e : Event) (s : State) : Host.Outcome State Fault Refusal :=
  match e with
  | .access a => performAccess a s
  | .reset c => .next (applyReset c s)

/-- The next event in issue order is taken and performed to its end (20_memory R38). With none left the
run is over (70_reset R127). -/
def performNext (s : State) : Host.Outcome State Fault Refusal :=
  match s.pending with
  | [] => .refused .hostStopped
  | e :: rest => performEvent e { s with pending := rest }

end Sys2Proof.Machine
end

