-- ==== Sys2Proof/Machine/Step.lean ====
section
/-! DEFINITION. One step of the machine: one host access or one reset, atomic (20_memory R37, R38;
70_reset R128). -/

namespace Sys2Proof.Machine

/-- One step. -/
def step (s : State) : Host.Outcome State Fault Refusal := performNext s

/-- `s` with the host's write of the given command word to CMD as the very next event. The checker
fetches nothing (10_state R17): its program is the host's command writes (log entry 1). -/
def State.withFetchWord (s : State) (nbits w : Nat) : State :=
  { s with pending := Event.cmdWrite (BitVec.ofNat 32 (w % 2 ^ nbits)) :: s.pending }

end Sys2Proof.Machine
end

