-- ==== Sys2Proof/Machine/Frame.lean ====
section
/-! DEFINITION. The frame check as the host drives it (41_frame_check R80 to R89) and the
pseudo-commands that stand for it (30_encoding R55). -/

namespace Sys2Proof.Machine

/-- The frame acceptance predicate (41_frame_check R82). -/
def frameCrcOk (p : List Byte) (hi lo : Byte) : Bool := compute p == wireCrc hi lo

/-- `FEED b0, b1, ...` (30_encoding R55). -/
def feed (d : List Byte) : List Instr := d.map .update

/-- `COMPUTE d` (30_encoding R55). -/
def computeCommands (d : List Byte) : List Instr := .init :: feed d ++ [.finish]

/-- `CHECKWIRE hi, lo` (30_encoding R55). -/
def checkWire (hi lo : Byte) : List Instr := [.check (wireCrc hi lo)]

/-- `CHECKFRAME d, hi, lo` (30_encoding R55): the canonical frame check (41_frame_check R84). -/
def checkFrame (d : List Byte) (hi lo : Byte) : List Instr := computeCommands d ++ checkWire hi lo

/-- The residue form of the check (41_frame_check R85). -/
def residueCheck (d : List Byte) (hi lo : Byte) : List Instr :=
  .init :: feed d ++ [.update hi, .update lo, .check 0x0000#16]

/-- The host's writes that issue some commands, one CMD write each (10_state R19, 30_encoding R53). -/
def commandEvents (is : List Instr) : List Event := is.map fun i => Event.cmdWrite (encode i)

/-- `crc-hi` as a sender that follows the source's convention transmits it (41_frame_check R89). -/
def senderHi (p : List Byte) : Byte := (compute p).extractLsb' 8 8

/-- `crc-lo`, likewise (41_frame_check R89). -/
def senderLo (p : List Byte) : Byte := (compute p).extractLsb' 0 8

/-- A received frame (20_memory R34, 41_frame_check R80). -/
structure Frame where
  start : Byte
  seq : Byte
  seqComplement : Byte
  payload : List Byte
  crcHi : Byte
  crcLo : Byte
deriving DecidableEq, Repr

/-- The frame on the wire: `[start-byte][seq][~seq][payload][crc-hi][crc-lo]` (20_memory R34). -/
def Frame.wire (f : Frame) : List Byte :=
  [f.start, f.seq, f.seqComplement] ++ f.payload ++ [f.crcHi, f.crcLo]

/-- How many payload bytes the start byte implies; none for a frame with no body (41_frame_check R81). -/
def payloadLength (start : Byte) : Option Nat :=
  if start = 0x01#8 then some 128 else if start = 0x02#8 then some 1024 else none

/-- The frame carries the bytes its start byte implies, which the host sees to (70_reset R124 (b)). -/
def Frame.lengthOk (f : Frame) : Bool := payloadLength f.start == some f.payload.length

/-- The commands that check a frame: only the payload is fed (41_frame_check R80, R84). -/
def Frame.commands (f : Frame) : List Instr := checkFrame f.payload f.crcHi f.crcLo

/-- The payload with bit `j` of byte `i` flipped (41_frame_check R88). -/
def flipBit (p : List Byte) (i j : Nat) : List Byte := p.modify i fun b => b ^^^ (1#8 <<< j)

end Sys2Proof.Machine
end

