-- ==== Sys2Proof/Machine/Assembler.lean ====
section
/-! DEFINITION. The assembler syntax and the pseudo-commands as text (30_encoding R54, R55). It is the
host's tool: no step of the machine uses it (92_eei_decisions D17: "No effect on semantics"). -/

namespace Sys2Proof.Machine

/-- The mnemonics of 30_encoding R54. -/
inductive Mnemonic where
  | nop
  | init
  | load
  | update
  | finish
  | check
deriving DecidableEq, Repr

/-- One command as written, before its operand is checked (30_encoding R54). -/
inductive AsmLine where
  | command (m : Mnemonic) (operand : Option Nat)
  /-- `.word w32`: written to CMD as it is. -/
  | word (w : Nat)
deriving DecidableEq, Repr

/-- The command a line names, or a refusal: an operand too large, or on NOP, INIT or FINISH
(30_encoding R54), or missing (log entry 8). -/
def assembleCommand (m : Mnemonic) (operand : Option Nat) : Option Instr :=
  match m, operand with
  | .nop, none => some .nop
  | .init, none => some .init
  | .finish, none => some .finish
  | .load, some v => if v ≤ 0xFFFF then some (.load (BitVec.ofNat 16 v)) else none
  | .update, some b => if b ≤ 0xFF then some (.update (BitVec.ofNat 8 b)) else none
  | .check, some t => if t ≤ 0xFFFF then some (.check (BitVec.ofNat 16 t)) else none
  | _, _ => none

/-- The command word of a line (30_encoding R54). -/
def assemble : AsmLine → Option Word
  | .command m operand => (assembleCommand m operand).map encode
  | .word w => if w ≤ 0xFFFFFFFF then some (BitVec.ofNat 32 w) else none

/-- One line of a listing: nothing, a command, a host register read, or the commands a pseudo-command
expands to (30_encoding R54, R55). -/
inductive SourceLine where
  | blank
  | asm (l : AsmLine)
  | rd (r : WindowReg)
  | pseudo (commands : List Instr)
deriving DecidableEq, Repr

/-- What the host does for a line: CMD writes and register reads (30_encoding R54, R55). -/
def SourceLine.events : SourceLine → Option (List Event)
  | .blank => some []
  | .asm l => (assemble l).map fun w => [Event.cmdWrite w]
  | .rd r => some [Event.rd r]
  | .pseudo is => some (commandEvents is)

/-! The text of a line, character by character (log entry 8). -/

def isBlankChar (c : Char) : Bool := c.toNat == 32 || c.toNat == 9

def skipBlanks (cs : List Char) : List Char := cs.dropWhile isBlankChar

/-- Nothing but blanks and a comment is left (30_encoding R54: `;` starts a comment). -/
def atEnd (cs : List Char) : Bool :=
  match skipBlanks cs with
  | [] => true
  | c :: _ => c == ';'

/-- The value of a digit, hexadecimal ones in either case. -/
def digitValue (c : Char) : Option Nat :=
  let n := c.toNat
  if 48 ≤ n ∧ n ≤ 57 then some (n - 48)
  else if 65 ≤ n ∧ n ≤ 70 then some (n - 55)
  else if 97 ≤ n ∧ n ≤ 102 then some (n - 87)
  else none

/-- Reads digits below `base` onto `acc`, and says what is left. -/
def readDigits (base : Nat) : Nat → List Char → Nat × List Char
  | acc, [] => (acc, [])
  | acc, c :: cs =>
    match digitValue c with
    | some d => if d < base then readDigits base (acc * base + d) cs else (acc, c :: cs)
    | none => (acc, c :: cs)

/-- One or more digits of `base`. -/
def readNatural (base : Nat) (cs : List Char) : Option (Nat × List Char) :=
  let r := readDigits base 0 cs
  if r.2.length < cs.length then some r else none

/-- A number: `0x` hexadecimal, decimal, or a character in single quotes (30_encoding R54). -/
def readNumber (cs : List Char) : Option (Nat × List Char) :=
  match cs with
  | a :: b :: c :: rest =>
    if a.toNat = 39 then if c.toNat = 39 ∧ b.toNat < 128 then some (b.toNat, rest) else none
    else if a = '0' ∧ b = 'x' then readNatural 16 (c :: rest)
    else readNatural 10 cs
  | _ => readNatural 10 cs

/-- The ASCII codes up to the closing double quote (30_encoding R55: no terminator is added). -/
def readText : List Char → Option (List Nat × List Char)
  | [] => none
  | c :: cs =>
    if c.toNat = 34 then some ([], cs)
    else if c.toNat < 128 then (readText cs).map fun r => (c.toNat :: r.1, r.2)
    else none

/-- One item of an operand list: a number, or the characters of a text (30_encoding R55). -/
def readItem (cs : List Char) : Option (List Nat × List Char) :=
  match cs with
  | c :: rest => if c.toNat = 34 then readText rest else (readNumber cs).map fun r => ([r.1], r.2)
  | [] => none

/-- Items separated by commas, to the end of the line. `fuel` bounds their number. -/
def readItems : Nat → List Char → Option (List Nat)
  | 0, _ => none
  | fuel + 1, cs =>
    match readItem (skipBlanks cs) with
    | none => none
    | some (ns, rest) =>
      match skipBlanks rest with
      | [] => some ns
      | c :: more =>
        if c = ',' then (readItems fuel more).map fun ms => ns ++ ms
        else if c = ';' then some ns
        else none

/-- The operand bytes of a pseudo-command; none written is the empty sequence (30_encoding R55). -/
def readBytes (cs : List Char) : Option (List Byte) :=
  if atEnd cs then some []
  else match readItems (cs.length + 1) cs with
    | some ns => if ns.all fun n => decide (n ≤ 0xFF) then some (ns.map (BitVec.ofNat 8)) else none
    | none => none

/-- The operand of a command: `#` and a number, or nothing (30_encoding R54). -/
def readOperand (cs : List Char) : Option (Option Nat) :=
  match skipBlanks cs with
  | [] => some none
  | c :: rest =>
    if c = '#' then
      match readNumber rest with
      | some (n, left) => if atEnd left then some (some n) else none
      | none => none
    else if c = ';' then some none
    else none

/-- A command line (30_encoding R54). -/
def readCommand (m : Mnemonic) (cs : List Char) : Option SourceLine :=
  (readOperand cs).map fun o => .asm (.command m o)

/-- A `.word` line (30_encoding R54). -/
def readWordLine (cs : List Char) : Option SourceLine :=
  match readNumber (skipBlanks cs) with
  | some (n, left) => if atEnd left then some (.asm (.word n)) else none
  | none => none

/-- A `RD` line (30_encoding R54; `RD CMD` stands in 95 V-A). -/
def readRegLine (cs : List Char) : Option SourceLine :=
  let cs := skipBlanks cs
  let name := cs.takeWhile fun c => c.isAlpha
  if atEnd (cs.dropWhile fun c => c.isAlpha) then
    if name = ['C', 'M', 'D'] then some (.rd .cmd)
    else if name = ['C', 'R', 'C'] then some (.rd .crc)
    else if name = ['S', 'T', 'A', 'T', 'U', 'S'] then some (.rd .status)
    else if name = ['E', 'R', 'R', 'C', 'M', 'D'] then some (.rd .errcmd)
    else none
  else none

/-- A `CHECKWIRE hi, lo` line (30_encoding R55). -/
def readCheckWire (cs : List Char) : Option SourceLine :=
  match readBytes cs with
  | some [hi, lo] => some (.pseudo (checkWire hi lo))
  | _ => none

/-- A `CHECKFRAME d, hi, lo` line: the last two bytes are the wire CRC (30_encoding R55). -/
def readCheckFrame (cs : List Char) : Option SourceLine :=
  match readBytes cs with
  | some bs =>
    match bs.reverse with
    | lo :: hi :: d => some (.pseudo (checkFrame d.reverse hi lo))
    | _ => none
  | none => none

/-- One line of assembler text (30_encoding R54, R55). -/
def readLine (text : List Char) : Option SourceLine :=
  let cs := skipBlanks text
  let word := cs.takeWhile fun c => c.isAlpha || c == '.'
  let rest := cs.dropWhile fun c => c.isAlpha || c == '.'
  if atEnd cs then some .blank
  else if word = ['N', 'O', 'P'] then readCommand .nop rest
  else if word = ['I', 'N', 'I', 'T'] then readCommand .init rest
  else if word = ['L', 'O', 'A', 'D'] then readCommand .load rest
  else if word = ['U', 'P', 'D', 'A', 'T', 'E'] then readCommand .update rest
  else if word = ['F', 'I', 'N', 'I', 'S', 'H'] then readCommand .finish rest
  else if word = ['C', 'H', 'E', 'C', 'K'] then readCommand .check rest
  else if word = ['.', 'w', 'o', 'r', 'd'] then readWordLine rest
  else if word = ['R', 'D'] then readRegLine rest
  else if word = ['F', 'E', 'E', 'D'] then (readBytes rest).map fun d => .pseudo (feed d)
  else if word = ['C', 'O', 'M', 'P', 'U', 'T', 'E'] then
    (readBytes rest).map fun d => .pseudo (computeCommands d)
  else if word = ['C', 'H', 'E', 'C', 'K', 'W', 'I', 'R', 'E'] then readCheckWire rest
  else if word = ['C', 'H', 'E', 'C', 'K', 'F', 'R', 'A', 'M', 'E'] then readCheckFrame rest
  else none

end Sys2Proof.Machine
end

