-- ==== Sys2Proof/Machine/Reference.lean ====
section
/-! DEFINITION. The functions the spec compares `update` and `compute` with: the `TAB` form
(41_frame_check R86), the direct form that is NOT `update` (40_crc_ops R61) and the catalogue CRC that
`compute` equals (R87). No command uses them. -/

namespace Sys2Proof.Machine

/-- `TAB[h] = update(h << 8, 0x00)` (41_frame_check R86). -/
def tab (h : Byte) : Crc16 := update (h.setWidth 16 <<< 8) 0x00#8

/-- The parameters a CRC catalogue gives for a 16-bit CRC (41_frame_check R87, 93 G2). -/
structure CatalogueParams where
  poly : Crc16
  init : Crc16
  refIn : Bool
  refOut : Bool
  xorOut : Crc16
deriving DecidableEq, Repr

/-- CRC-16/XMODEM (41_frame_check R87; PRESUMED, from general knowledge: 93 G2, log entry 10). -/
def xmodem : CatalogueParams :=
  { poly := 0x1021#16, init := 0x0000#16, refIn := false, refOut := false, xorOut := 0x0000#16 }

/-- One shift-and-conditional-XOR step of the direct form (40_crc_ops R61, 93 G5). -/
def directShift (g r : Crc16) : Crc16 := if r.getLsbD 15 then (r <<< 1) ^^^ g else r <<< 1

/-- The direct step: `r <- crc ^ (byte << 8)`, then eight shifts (40_crc_ops R61, 93 G5). -/
def directUpdate (g crc : Crc16) (b : Byte) : Crc16 :=
  (directShift g)^[8] (crc ^^^ (b.setWidth 16 <<< 8))

/-- The CRC a catalogue entry names, in the direct form catalogues use (93 G2, G5). -/
def catalogueCrc (p : CatalogueParams) (d : List Byte) : Crc16 :=
  let r := d.foldl (fun c b => directUpdate p.poly c (if p.refIn then b.reverse else b)) p.init
  (if p.refOut then r.reverse else r) ^^^ p.xorOut

end Sys2Proof.Machine
end

