-- ==== Sys2Proof/Safety.lean ====
section
/-! DEFINITION. What the claims say of states and of sequences of events: the consistency of the
registers (10_state R14, R16), which commands a sequence of events issues, and when the host may take a
frame as validated (70_reset R124). -/

namespace Sys2Proof.Machine

/-- What the status bits and ERRCMD owe each other: `CHECKED = 0` implies `MATCH = 0` (10_state R14),
ERRCMD is 0 while `ERR = 0`, and it holds an illegal word while `ERR = 1` (R16). -/
def State.consistent (s : State) : Bool :=
  (s.checked || !s.matched) && (s.err || s.errcmd == 0#32) &&
    (!s.err || (decode s.errcmd).isNone)

/-- An admitted access of the host (00_scope R2, 20_memory R31). -/
def Event.isAdmitted : Event → Bool
  | .access a => a.master == .host && a.admitted
  | .reset _ => false

/-- The word the event writes to CMD, if it is an admitted host write there. -/
def Event.cmdWord? : Event → Option Word
  | .access a =>
    match a.kind with
    | .read => none
    | .write w =>
      if Event.isAdmitted (.access a) && WindowReg.ofOffset a.offset == .cmd then some w else none
  | .reset _ => none

/-- The command a word issues, NOP left out. -/
def commandOfWord (w : Word) : Option Instr := (decode w).filter fun i => i != .nop

/-- The command the event issues, NOP left out: what 41_frame_check R84 counts as "other command". -/
def Event.command? (e : Event) : Option Instr := e.cmdWord?.bind commandOfWord

/-- The illegal word the event writes to CMD, if it does (60_exceptions R101). -/
def Event.illegalWord? (e : Event) : Option Word := e.cmdWord?.filter fun w => (decode w).isNone

/-- The commands of a sequence of events in order, NOPs, illegal words and register reads left out. -/
def commandsOf (es : List Event) : List Instr := es.filterMap Event.command?

/-- The illegal words of a sequence of events, in order. -/
def illegalWordsOf (es : List Event) : List Word := es.filterMap Event.illegalWord?

/-- How a frame check may start (70_reset R124 (a)): INIT, `LOAD #0x0000`, or nothing in the first
frame after reset (R122). -/
inductive FrameStart where
  | init
  | loadZero
  | afterReset
deriving DecidableEq, Repr

/-- The commands of a start. -/
def FrameStart.commands : FrameStart → List Instr
  | .init => [.init]
  | .loadZero => [.load 0x0000#16]
  | .afterReset => []

/-- The commands of a frame check with the given start (70_reset R124 (a) to (d)). -/
def frameCheckFrom (st : FrameStart) (p : List Byte) (hi lo : Byte) : List Instr :=
  st.commands ++ feed p ++ [.finish] ++ checkWire hi lo

/-- What the host may take as a validated frame, from the state before its first command and the state
its last CHECK left (70_reset R124 (e), (f); DEDUCED, log entry 12): the CHECK matched, and ERR is still
clear. -/
def frameValidated (before after : State) : Bool :=
  after.matched && after.checked && !before.err && !after.err

/-- Some commands executed one after the other (20_memory R38). -/
def execAll : List Instr → State → Host.Outcome State Fault Refusal
  | [], s => .next s
  | i :: is, s =>
    match exec i s with
    | .next t => execAll is t
    | .fault f => .fault f
    | .refused r => .refused r

/-- `n` steps, to the first stop. -/
def run : Nat → State → Host.Outcome State Fault Refusal
  | 0, s => .next s
  | n + 1, s =>
    match step s with
    | .next t => run n t
    | .fault f => .fault f
    | .refused r => .refused r

/-- The events `es` come next, before all else that is pending, and are performed one by one. -/
def runAll (es : List Event) (s : State) : Host.Outcome State Fault Refusal :=
  run es.length { s with pending := es ++ s.pending }

/-- How a command changes the operand of the last CHECK "since `CRC` was last written" (10_state R13). -/
def lastCheckAfter (last : Option Crc16) : Option Instr → Option Crc16
  | none => last
  | some .nop => last
  | some (.check t) => some t
  | some .init => none
  | some (.load _) => none
  | some (.update _) => none
  | some .finish => none

/-- How an event does: "or since reset" (10_state R13). -/
def lastCheckNext (last : Option Crc16) : Event → Option Crc16
  | .reset _ => none
  | .access a => lastCheckAfter last (Event.command? (.access a))

/-- The operand of the last CHECK since CRC was written or the checker reset, if there was one. -/
def lastCheck (es : List Event) : Option Crc16 := es.foldl lastCheckNext none

/-- How an event changes the list of illegal words since reset (10_state R16). -/
def illegalNext (ws : List Word) : Event → List Word
  | .reset _ => []
  | .access a => ws ++ (Event.illegalWord? (.access a)).toList

/-- The illegal words since the last reset, in order. -/
def illegalSinceReset (es : List Event) : List Word := es.foldl illegalNext []

end Sys2Proof.Machine
end

