-- ==== Sys2Proof/Certificates/Slice0/Obligations.lean ====
section
/-! DEFINITION. The statements for the provers. Each docstring names the rule of spec/ it states, or the
inference of the spec or the log entry it rests on. -/

open Sys2Proof Sys2Proof.Machine

/-! ## Encoding -/

/-- Words written out bit by bit from 30_encoding R46 and R47 decode to the commands they stand for. -/
def Obligations.WordsWrittenOutDecodeToTheirCommands : Prop :=
  decode 0b0000_000000000000_0000000000000000#32 = some .nop ∧
  decode 0b0001_000000000000_0000000000000000#32 = some .init ∧
  decode 0b0010_000000000000_1011111011101111#32 = some (.load 0xBEEF#16) ∧
  decode 0b0011_000000000000_0000000000110001#32 = some (.update 0x31#8) ∧
  decode 0b0100_000000000000_0000000000000000#32 = some .finish ∧
  decode 0b0101_000000000000_0011000111000011#32 = some (.check 0x31C3#16)

/-- Decoding and encoding agree in both directions, for every word and every command. -/
def Obligations.DecodeAndEncodeAgree : Prop :=
  ∀ (w : Word) (i : Instr), decode w = some i ↔ i.wellFormed = true ∧ encode i = w

/-- 30_encoding R51: the decoder on the three fields of a word, and what each result does when the word
is written to CMD (an illegal word: 60_exceptions R102). -/
def Obligations.DecoderFollowsTheFieldsOfTheWord : Prop :=
  (∀ (op : BitVec 4) (rsv : BitVec 12) (imm : BitVec 16),
    decode (op ++ rsv ++ imm) =
      if rsv ≠ 0#12 then none
      else if op = 0x0#4 then (if imm = 0#16 then some .nop else none)
      else if op = 0x1#4 then (if imm = 0#16 then some .init else none)
      else if op = 0x2#4 then some (.load imm)
      else if op = 0x3#4 then
        (if imm.extractLsb' 8 8 = 0#8 then some (.update (imm.extractLsb' 0 8)) else none)
      else if op = 0x4#4 then (if imm = 0#16 then some .finish else none)
      else if op = 0x5#4 then some (.check imm)
      else none) ∧
  (∀ (w : Word) (rest : List Event) (s : State), s.pending = Event.cmdWrite w :: rest →
    step s = match decode w with
      | some i => exec i { s with pending := rest }
      | none => .next { s with
          pending := rest, errcmd := (if s.err then s.errcmd else w), err := true })

/-- 30_encoding R49 with R50's reserved opcodes: these words are illegal, and no others. -/
def Obligations.IllegalWordsAreTheReservedAndMustBeZeroOnes : Prop :=
  ∀ w : Word, decode w = none ↔
    w.extractLsb' 16 12 ≠ 0#12 ∨
    ((w.extractLsb' 28 4 = 0x0#4 ∨ w.extractLsb' 28 4 = 0x1#4 ∨ w.extractLsb' 28 4 = 0x4#4) ∧
      w.extractLsb' 0 16 ≠ 0#16) ∨
    (w.extractLsb' 28 4 = 0x3#4 ∧ w.extractLsb' 8 8 ≠ 0#8) ∨
    6 ≤ (w.extractLsb' 28 4).toNat

/-- 30_encoding R50: the reserved opcodes are illegal whatever the other bits, an illegal word takes the
error entry and does nothing else, and `0x00000000` is the only word that executes as a no-op. -/
def Obligations.ReservedOpcodesAreIllegalAndOnlyNopIsANoOp : Prop :=
  (∀ w : Word, 0x6#4 ≤ w.extractLsb' 28 4 → decode w = none) ∧
  (∀ (w : Word) (s : State), decode w = none → issueCommand w s =
    .next { s with errcmd := (if s.err then s.errcmd else w), err := true }) ∧
  (∀ w : Word, (∀ s : State, issueCommand w s = .next s) ↔ w = 0x00000000#32)

/-- 30_encoding R48: where each operand stands in the word, that every value of its width is legal, and
that the CHECK word of a frame check holds `crc-hi` above `crc-lo`. -/
def Obligations.OperandsAreTheirBitsOfTheWord : Prop :=
  (∀ (w : Word) (v : Crc16), decode w = some (.load v) → v = w.extractLsb' 0 16) ∧
  (∀ (w : Word) (b : Byte), decode w = some (.update b) →
    b = w.extractLsb' 0 8 ∧ w.extractLsb' 8 8 = 0x00#8) ∧
  (∀ (w : Word) (t : Crc16), decode w = some (.check t) → t = w.extractLsb' 0 16) ∧
  (∀ (w : Word) (i : Instr), i = .nop ∨ i = .init ∨ i = .finish → decode w = some i →
    w.extractLsb' 0 16 = 0x0000#16) ∧
  (∀ v : Crc16, ∃ w : Word, decode w = some (.load v)) ∧
  (∀ b : Byte, ∃ w : Word, decode w = some (.update b)) ∧
  (∀ t : Crc16, ∃ w : Word, decode w = some (.check t)) ∧
  (∀ (w : Word) (hi lo : Byte), decode w = some (.check (wireCrc hi lo)) →
    w.extractLsb' 8 8 = hi ∧ w.extractLsb' 0 8 = lo)

/-- The count of the legal words, which 30_encoding R52 marks as derived. -/
def Obligations.LegalWordsAreCounted : Prop :=
  Nat.card {w : Word // decode w = some .nop} = 1 ∧
  Nat.card {w : Word // decode w = some .init} = 1 ∧
  Nat.card {w : Word // ∃ v, decode w = some (.load v)} = 65536 ∧
  Nat.card {w : Word // ∃ b, decode w = some (.update b)} = 256 ∧
  Nat.card {w : Word // decode w = some .finish} = 1 ∧
  Nat.card {w : Word // ∃ t, decode w = some (.check t)} = 65536 ∧
  Nat.card {w : Word // (decode w).isSome = true} = 131331 ∧
  Nat.card {w : Word // decode w = none} = 2 ^ 32 - 131331

/-- The rows of spec/opcode_table.json are what the decoder reads, and no two of them share a word. -/
def Obligations.OpcodeTableRowsAreWhatTheDecoderReads : Prop :=
  (∀ (w : Word), ∀ r ∈ opcodeTable,
    (r.covers w = true ↔ ∃ i, decode w = some i ∧ i.mnemonic = r.mnemonic)) ∧
  (∀ (w : Word), ∀ r ∈ opcodeTable, ∀ r' ∈ opcodeTable,
    r.covers w = true → r'.covers w = true → r = r')

/-! ## The CRC functions -/

/-- 40_crc_ops R61: the loop of the pseudocode, `r 8` before it and `r i` after its turn for bit `i`, from
bit 7 down to bit 0; and the direct form is a different function. -/
def Obligations.UpdateIsTheAugmentedShiftRegisterLoop : Prop :=
  (∀ (crc : Crc16) (b : Byte), ∃ r : Nat → Crc16, r 8 = crc ∧
    (∀ i < 8, r i =
      if (r (i + 1)).getLsbD 15 = true
      then (((r (i + 1)) <<< 1) ||| (if b.getLsbD i then 0x0001#16 else 0x0000#16)) ^^^ 0x1021#16
      else ((r (i + 1)) <<< 1) ||| (if b.getLsbD i then 0x0001#16 else 0x0000#16)) ∧
    update crc b = r 0) ∧
  (∃ (crc : Crc16) (b : Byte), update crc b ≠ directUpdate 0x1021#16 crc b)

/-- The corner values of `update` that 40_crc_ops R62 derives from R61. -/
def Obligations.UpdateCornerValues : Prop :=
  (∀ b : Byte, update 0x0000#16 b = b.setWidth 16) ∧
  update 0x0000#16 0x00#8 = 0x0000#16 ∧
  update 0xFFFF#16 0x00#8 = 0xE1F0#16 ∧
  update 0x8000#16 0x00#8 = 0x9188#16

/-- The byte-split law and the `TAB` form of `update`, which 41_frame_check R86 derives from R61. -/
def Obligations.UpdateSplitsIntoByteAndTable : Prop :=
  ∀ (c : Crc16) (b : Byte),
    update c b = update c 0x00#8 ^^^ b.setWidth 16 ∧
    update c 0x00#8 = ((c &&& 0x00FF#16) <<< 8) ^^^ update (c &&& 0xFF00#16) 0x00#8 ∧
    update c b = (((c &&& 0xFF#16) <<< 8) ||| b.setWidth 16) ^^^ tab (c.extractLsb' 8 8) ∧
    tab 0x00#8 = 0x0000#16 ∧ tab 0x01#8 = 0x1021#16 ∧ tab 0x12#8 = 0x3273#16 ∧
    tab 0x80#8 = 0x9188#16 ∧ tab 0xFF#8 = 0x1EF0#16

/-- `compute` is defined for every input, empty too, and is 0 over zero bytes (40_crc_ops R64 derives
the values). -/
def Obligations.ComputeOfNoBytesAndOfZeroBytes : Prop :=
  compute [] = fold 0x0000#16 [0x00#8, 0x00#8] ∧ compute [] = 0x0000#16 ∧
  ∀ n : Nat, compute (List.replicate n 0x00#8) = 0x0000#16

/-- The register holds the message's remainder by `x^16 + x^12 + x^5 + 1` over GF(2), the reading of
00_scope R8 that 41_frame_check R85 argues with and 93 G3 has from general knowledge. -/
def Obligations.RegisterHoldsTheRemainderOfTheMessage : Prop :=
  ∀ m : List Byte, ∃ q : Polynomial (ZMod 2),
    (m.flatMap bitsMsbFirst).foldl
        (fun a b => Polynomial.X * a + (if b then 1 else 0)) (0 : Polynomial (ZMod 2)) =
      q * (Polynomial.X ^ 16 + Polynomial.X ^ 12 + Polynomial.X ^ 5 + 1) +
        ∑ i ∈ Finset.range 16,
          (if (fold 0x0000#16 m).getLsbD i then Polynomial.X ^ i else 0 : Polynomial (ZMod 2))

/-- `compute` is the catalogue's CRC-16/XMODEM for every input, with its check value and its residue
(41_frame_check R87, derived there; parameters and check value PRESUMED, from general knowledge: 93 G2, log
entry 10). -/
def Obligations.ComputeEqualsCatalogueXmodem : Prop :=
  (∀ d : List Byte, compute d = catalogueCrc xmodem d) ∧
  compute [0x31#8, 0x32#8, 0x33#8, 0x34#8, 0x35#8, 0x36#8, 0x37#8, 0x38#8, 0x39#8] = 0x31C3#16 ∧
  (∀ d : List Byte, catalogueCrc xmodem (d ++ [senderHi d, senderLo d]) = 0x0000#16)

/-- `compute` is linear, which 41_frame_check R90 derives. -/
def Obligations.ComputeIsLinear : Prop :=
  ∀ d1 d2 : List Byte, d1.length = d2.length →
    compute (List.zipWith (· ^^^ ·) d1 d2) = compute d1 ^^^ compute d2

/-- Leading zero bytes do not change `compute`; a trailing one can (41_frame_check R91, derived there;
the example is its `"4096 "`). -/
def Obligations.LeadingZeroBytesAreInvisible : Prop :=
  (∀ d : List Byte, compute (0x00#8 :: d) = compute d) ∧
  compute [0x34#8, 0x30#8, 0x39#8, 0x36#8, 0x20#8] ≠
    compute ([0x34#8, 0x30#8, 0x39#8, 0x36#8, 0x20#8] ++ [0x00#8])

/-- The residue law of 41_frame_check R85, derived there: feeding the payload and its two CRC bytes,
high byte first, leaves `compute(p) ^ T`, which is 0 exactly when the frame's CRC is right. In the other
order it can leave something else on a right frame. -/
def Obligations.ResidueIsZeroExactlyWhenTheFrameCrcIsRight : Prop :=
  (∀ (p : List Byte) (hi lo : Byte),
    fold 0x0000#16 (p ++ [hi, lo]) = compute p ^^^ wireCrc hi lo ∧
    (fold 0x0000#16 (p ++ [hi, lo]) = 0x0000#16 ↔ frameCrcOk p hi lo = true)) ∧
  (∃ (p : List Byte) (hi lo : Byte),
    frameCrcOk p hi lo = true ∧ fold 0x0000#16 (p ++ [lo, hi]) ≠ 0x0000#16)

/-- Every single-bit flip of a payload of any length changes the CRC, so a frame that passed fails
(41_frame_check R88, derived there from the polynomial reading). -/
def Obligations.EverySingleBitFlipIsDetected : Prop :=
  ∀ (p : List Byte) (i j : Nat), i < p.length → j < 8 →
    compute (flipBit p i j) ≠ compute p ∧
    ∀ hi lo : Byte, frameCrcOk p hi lo = true → frameCrcOk (flipBit p i j) hi lo = false

/-! ## The commands -/

/-- 40_crc_ops R65: NOP has the one word `0x00000000`, changes nothing, and every other word with its
opcode takes the error entry. -/
def Obligations.NopChangesNothing : Prop :=
  (∀ w : Word, decode w = some .nop ↔ w = 0x00000000#32) ∧
  (∀ s : State, exec .nop s = .next s) ∧
  (∀ (w : Word) (s : State), w.extractLsb' 28 4 = 0x0#4 → w ≠ 0x00000000#32 →
    issueCommand w s =
      .next { s with errcmd := (if s.err then s.errcmd else w), err := true }) ∧
  (exec .nop State.reset = .next State.reset ∧ readValue .crc State.reset = 0x0000#32 ∧
    readValue .status State.reset = 0x0#32)

/-- 40_crc_ops R66: INIT. -/
def Obligations.InitClearsCrcAndCheckBits : Prop :=
  (∀ w : Word, decode w = some .init ↔ w = 0x10000000#32) ∧
  (∀ s : State, exec .init s =
    .next { s with crc := 0x0000#16, matched := false, checked := false }) ∧
  (∀ (w : Word) (s : State), w.extractLsb' 28 4 = 0x1#4 → w ≠ 0x10000000#32 →
    issueCommand w s =
      .next { s with errcmd := (if s.err then s.errcmd else w), err := true }) ∧
  (∀ s : State, ∃ t, execAll [.load 0xBEEF#16, .init] s = .next t ∧ t.crc = 0x0000#16)

/-- 40_crc_ops R67: LOAD. -/
def Obligations.LoadWritesItsOperandToCrc : Prop :=
  (∀ (w : Word) (v : Crc16), decode w = some (.load v) ↔
    w &&& 0xFFFF0000#32 = 0x20000000#32 ∧ v = w.extractLsb' 0 16) ∧
  (∀ (v : Crc16) (s : State), exec (.load v) s =
    .next { s with crc := v, matched := false, checked := false }) ∧
  (∀ (w : Word) (s : State), w.extractLsb' 28 4 = 0x2#4 → w.extractLsb' 16 12 ≠ 0#12 →
    issueCommand w s =
      .next { s with errcmd := (if s.err then s.errcmd else w), err := true }) ∧
  (∀ s : State, exec (.load 0x0000#16) s = exec .init s) ∧
  (∀ s : State, ∃ t,
    execAll (.load 0x1381#16 :: feed [0x35#8, 0x36#8, 0x37#8, 0x38#8, 0x39#8] ++ [.finish]) s =
      .next t ∧ t.crc = 0x31C3#16)

/-- 40_crc_ops R68: UPDATE. -/
def Obligations.UpdateFoldsOneByteIntoCrc : Prop :=
  (∀ (w : Word) (b : Byte), decode w = some (.update b) ↔
    w &&& 0xFFFFFF00#32 = 0x30000000#32 ∧ b = w.extractLsb' 0 8) ∧
  (∀ (b : Byte) (s : State), exec (.update b) s =
    .next { s with crc := update s.crc b, matched := false, checked := false }) ∧
  (∀ (w : Word) (s : State), w.extractLsb' 28 4 = 0x3#4 → w.extractLsb' 8 20 ≠ 0#20 →
    issueCommand w s =
      .next { s with errcmd := (if s.err then s.errcmd else w), err := true }) ∧
  (∀ s : State, execAll [.update 0x00#8, .update 0x00#8] s = exec .finish s) ∧
  (∀ s : State, s.crc = 0x1234#16 → ∃ t, exec (.update 0x56#8) s = .next t ∧ t.crc = 0x0625#16)

/-- 40_crc_ops R69: FINISH. The values of its examples, which the rule marks as derived, stand in
`CommandExamplesTheRulesDerive`. -/
def Obligations.FinishFoldsTwoZeroBytesIntoCrc : Prop :=
  (∀ w : Word, decode w = some .finish ↔ w = 0x40000000#32) ∧
  (∀ s : State, exec .finish s = .next { s with
    crc := update (update s.crc 0x00#8) 0x00#8, matched := false, checked := false }) ∧
  (∀ (w : Word) (s : State), w.extractLsb' 28 4 = 0x4#4 → w ≠ 0x40000000#32 →
    issueCommand w s =
      .next { s with errcmd := (if s.err then s.errcmd else w), err := true }) ∧
  (∀ (b : Byte) (s : State), ∃ t, execAll [.finish, .update b] s = .next t ∧
    t.crc = update (update (update s.crc 0x00#8) 0x00#8) b) ∧
  (∀ s : State, ∃ t, execAll [.finish, .finish] s = .next t ∧
    t.crc = fold s.crc [0x00#8, 0x00#8, 0x00#8, 0x00#8])

/-- The consequences that 40_crc_ops R66 and R69 mark as derived: INIT right after reset changes
nothing, and the values FINISH leaves. -/
def Obligations.CommandExamplesTheRulesDerive : Prop :=
  exec .init State.reset = .next State.reset ∧
  (∀ (s : State) (c r : Crc16), s.crc = c →
    (c, r) ∈ [(0x0000#16, 0x0000#16), (0x8000#16, 0x1B98#16), (0xFFFF#16, 0x1D0F#16),
      (0xBEEF#16, 0x31C3#16), (0x31C3#16, 0xDF8B#16)] →
    ∃ t, exec .finish s = .next t ∧ t.crc = r)

/-- 40_crc_ops R70: CHECK. -/
def Obligations.CheckComparesCrcWithItsOperand : Prop :=
  (∀ (w : Word) (t : Crc16), decode w = some (.check t) ↔
    w &&& 0xFFFF0000#32 = 0x50000000#32 ∧ t = w.extractLsb' 0 16) ∧
  (∀ (t : Crc16) (s : State), exec (.check t) s =
    .next { s with matched := decide (s.crc = t), checked := true }) ∧
  (∀ (w : Word) (s : State), w.extractLsb' 28 4 = 0x5#4 → w.extractLsb' 16 12 ≠ 0#12 →
    issueCommand w s =
      .next { s with errcmd := (if s.err then s.errcmd else w), err := true }) ∧
  (∀ (t t' : Crc16) (s : State), execAll [.check t, .check t'] s = exec (.check t') s) ∧
  (∀ (p : List Byte) (hi lo : Byte) (s : State),
    ∃ t, execAll (residueCheck p hi lo) s = .next t ∧
      t.matched = decide (fold 0x0000#16 (p ++ [hi, lo]) = 0x0000#16)) ∧
  (∀ (hi lo : Byte) (s : State), s.crc = wireCrc hi lo →
    ∃ t, exec (.check (wireCrc lo hi)) s = .next t ∧ t.matched = decide (hi = lo)) ∧
  (∃ t, execAll (checkFrame [0x31#8, 0x32#8, 0x33#8, 0x34#8, 0x35#8, 0x36#8, 0x37#8, 0x38#8, 0x39#8]
      0x31#8 0xC3#8) State.reset = .next t ∧ readValue .status t = 0x3#32) ∧
  (∃ t, execAll (checkFrame [0x31#8, 0x32#8, 0x33#8, 0x34#8, 0x35#8, 0x36#8, 0x37#8, 0x38#8, 0x39#8]
      0xC3#8 0x31#8) State.reset = .next t ∧ readValue .status t = 0x2#32)

/-- 60_exceptions R105: a CRC mismatch is a result and not an error. -/
def Obligations.MismatchIsNotAnError : Prop :=
  ∀ (t : Crc16) (s : State), s.crc ≠ t →
    exec (.check t) s = .next { s with matched := false, checked := true }

/-- 40_crc_ops R71: a legal command completes and leaves ERR, ERRCMD and the outside as they are, runs
the same whatever ERR and ERRCMD hold, and only the error entry (reset apart, 10_state R15) writes them. -/
def Obligations.LegalCommandsNeitherWriteNorReadErr : Prop :=
  (∀ (i : Instr) (s : State), ∃ t, exec i s = .next t ∧
    t.err = s.err ∧ t.errcmd = s.errcmd ∧ t.pending = s.pending ∧ t.readLog = s.readLog ∧
    ∀ (e : Bool) (w : Word),
      exec i { s with err := e, errcmd := w } = .next { t with err := e, errcmd := w }) ∧
  (∀ (s t : State) (e : Event) (rest : List Event), s.pending = e :: rest → step s = .next t →
    (∀ c, e ≠ .reset c) → t.err ≠ s.err ∨ t.errcmd ≠ s.errcmd →
    ∃ w, e.cmdWord? = some w ∧ decode w = none)

/-- 60_exceptions R100: no CRC computation raises an error, whatever the command's operand and whatever
the payload's length and bytes. -/
def Obligations.NoCommandAndNoPayloadRaisesAnError : Prop :=
  (∀ (i : Instr) (s : State), ∃ t, runAll [Event.cmdWrite (encode i)] s = .next t ∧
    t.err = s.err ∧ t.errcmd = s.errcmd ∧ t.pending = s.pending) ∧
  (∀ (d : List Byte) (s : State), ∃ t, runAll (commandEvents (feed d)) s = .next t ∧
    t.crc = fold s.crc d ∧ t.err = s.err ∧ t.errcmd = s.errcmd ∧ t.pending = s.pending ∧
    t.readLog = s.readLog)

/-! ## The step, the registers and the accesses -/

/-- A write to CMD of a word that decodes to a command is that command's `exec`, once the write is taken
off the pending events (10_state R19, 30_encoding R51; the queue is log entry 1). -/
def Obligations.StepRunsTheDecodedCommand : Prop :=
  ∀ (s : State) (w : Word) (i : Instr) (rest : List Event),
    s.pending = Event.cmdWrite w :: rest → decode w = some i →
    step s = exec i { s with pending := rest }

/-- 60_exceptions R102: the error entry of an illegal word, which stops nothing and changes no later
command. -/
def Obligations.IllegalWordTakesTheErrorEntry : Prop :=
  ∀ (s : State) (w : Word) (rest : List Event),
    s.pending = Event.cmdWrite w :: rest → decode w = none →
    step s = .next { s with
      pending := rest, errcmd := (if s.err then s.errcmd else w), err := true } ∧
    ∀ (i : Instr) (t : State), exec i { s with pending := rest } = .next t →
      exec i { s with pending := rest, errcmd := (if s.err then s.errcmd else w), err := true } =
        .next { t with errcmd := (if s.err then s.errcmd else w), err := true }

/-- 60_exceptions R103: there is no return from error. ERR and the first ERRCMD stay through every event
but a reset, commands go on running, and a reset clears ERR. -/
def Obligations.ErrStaysUntilReset : Prop :=
  (∀ (s t : State) (e : Event) (rest : List Event), s.err = true → s.pending = e :: rest →
    (∀ c, e ≠ .reset c) → step s = .next t → t.err = true ∧ t.errcmd = s.errcmd) ∧
  (∀ (i : Instr) (s : State), s.err = true → ∃ t, exec i s = .next t ∧
    exec i { s with err := false } = .next { t with err := false }) ∧
  (∀ (s : State) (c : ResetCause) (rest : List Event), s.pending = .reset c :: rest →
    ∃ t, step s = .next t ∧ t.err = false)

/-- 10_state R19: the CMD register. A write issues the command, a read returns 0 and has no effect, and
only an illegal word is kept. -/
def Obligations.CmdRegisterIssuesAndReadsZero : Prop :=
  (∀ (s : State) (w : Word) (rest : List Event), s.pending = .access ⟨.host, 0x0, 4, .write w⟩ :: rest →
    step s = issueCommand w { s with pending := rest }) ∧
  (∀ (s : State) (rest : List Event), s.pending = .access ⟨.host, 0x0, 4, .read⟩ :: rest →
    step s = .next { s with pending := rest, readLog := 0x00000000#32 :: s.readLog }) ∧
  (∀ (s t : State) (w : Word), issueCommand w s = .next t → t.errcmd ≠ s.errcmd →
    decode w = none ∧ t.errcmd = w)

/-- 10_state R20: the CRC register. -/
def Obligations.CrcRegisterReadsTheRollingCrc : Prop :=
  (∀ (s : State) (rest : List Event), s.pending = .access ⟨.host, 0x4, 4, .read⟩ :: rest →
    ∃ v : Word, step s = .next { s with pending := rest, readLog := v :: s.readLog } ∧
      v.extractLsb' 0 16 = s.crc ∧ v.extractLsb' 16 16 = 0#16) ∧
  (∀ (s : State) (w : Word) (rest : List Event),
    s.pending = .access ⟨.host, 0x4, 4, .write w⟩ :: rest → step s = .next { s with pending := rest })

/-- 10_state R21: the STATUS register, bit by bit. The legal read values, which the rule marks as
derived, stand in `StatusReadsOnlyItsLegalValues`. -/
def Obligations.StatusRegisterReadsItsFields : Prop :=
  (∀ (s : State) (rest : List Event), s.pending = .access ⟨.host, 0x8, 4, .read⟩ :: rest →
    ∃ v : Word, step s = .next { s with pending := rest, readLog := v :: s.readLog } ∧
      v.getLsbD 0 = s.matched ∧ v.getLsbD 1 = s.checked ∧ v.getLsbD 2 = s.err ∧
      (∀ i, 3 ≤ i → v.getLsbD i = false)) ∧
  (∀ (s : State) (w : Word) (rest : List Event),
    s.pending = .access ⟨.host, 0x8, 4, .write w⟩ :: rest → step s = .next { s with pending := rest })

/-- STATUS reads only the values 10_state R21 derives from the invariant of R14, in every state where
that invariant holds (`EveryStepKeepsTheRegistersConsistent`). -/
def Obligations.StatusReadsOnlyItsLegalValues : Prop :=
  ∀ s : State, s.consistent = true →
    ∃ t v, runAll [Event.rd .status] s = .next t ∧ t.readLog = v :: s.readLog ∧
      v ∈ [0x0#32, 0x2#32, 0x3#32, 0x4#32, 0x6#32, 0x7#32]

/-- 10_state R22: the ERRCMD register. -/
def Obligations.ErrcmdRegisterReadsErrcmd : Prop :=
  (∀ (s : State) (rest : List Event), s.pending = .access ⟨.host, 0xC, 4, .read⟩ :: rest →
    step s = .next { s with pending := rest, readLog := s.errcmd :: s.readLog }) ∧
  (∀ (s : State) (w : Word) (rest : List Event),
    s.pending = .access ⟨.host, 0xC, 4, .write w⟩ :: rest → step s = .next { s with pending := rest })

/-- 20_memory R33: writes to the read-only registers are ignored, and CMD reads 0. -/
def Obligations.WritesToReadOnlyRegistersAreIgnored : Prop :=
  (∀ (s : State) (r : WindowReg) (v : Word) (rest : List Event), r ≠ .cmd →
    s.pending = Event.wr r v :: rest → step s = .next { s with pending := rest }) ∧
  (∀ (s : State) (rest : List Event), s.pending = Event.rd .cmd :: rest →
    step s = .next { s with pending := rest, readLog := 0x00000000#32 :: s.readLog })

/-- 20_memory R32: a CMD write executes one command; a read changes nothing but what the host has read,
and a second read of the register with no CMD write in between returns the same value. -/
def Obligations.ReadsHaveNoSideEffectAndAreIdempotent : Prop :=
  (∀ (s : State) (w : Word) (rest : List Event), s.pending = Event.wr .cmd w :: rest →
    step s = issueCommand w { s with pending := rest }) ∧
  (∀ (s : State) (r : WindowReg) (rest : List Event), s.pending = Event.rd r :: rest →
    ∃ v, step s = .next { s with pending := rest, readLog := v :: s.readLog }) ∧
  (∀ (s : State) (r : WindowReg) (es : List Event),
    (∀ e ∈ es, e.isAdmitted = true ∧ e.cmdWord? = none) →
    ∃ (v : Word) (t u : State) (mid : List Word),
      runAll [Event.rd r] s = .next t ∧ t.readLog = v :: s.readLog ∧
      runAll (Event.rd r :: es ++ [Event.rd r]) s = .next u ∧
      u.readLog = v :: mid ++ v :: s.readLog)

/-- 70_reset R125: a CMD write is complete before the next access. A read right after it returns the
command's result, and a command right after it starts from that result. -/
def Obligations.CommandIsCompleteBeforeTheNextAccess : Prop :=
  ∀ (s : State) (w : Word), ∃ t, issueCommand w s = .next t ∧
    (∀ r : WindowReg, runAll [Event.cmdWrite w, Event.rd r] s =
      .next { t with readLog := readValue r t :: t.readLog }) ∧
    (∀ w' : Word, runAll [Event.cmdWrite w, Event.cmdWrite w'] s = issueCommand w' t)

/-- Every admitted access has a step, in every state (70_reset R127). That the end of a run, with no event
pending, is the refusal `hostStopped` is the model's (log entry 5), as the queue is (log entry 1). -/
def Obligations.EveryAdmittedAccessCompletes : Prop :=
  (∀ (s : State) (off : Int) (k : AccessKind) (rest : List Event),
    off = 0x0 ∨ off = 0x4 ∨ off = 0x8 ∨ off = 0xC →
    s.pending = .access ⟨.host, off, 4, k⟩ :: rest →
    ∃ t, step s = .next t ∧ t.pending = rest) ∧
  (∀ s : State, s.pending = [] → step s = .refused .hostStopped)

/-- A byte, halfword or unaligned access of the host that touches the window has no step, whatever the state
(20_memory R31, 60_exceptions R106). That other sizes and accesses over the window's edge count among them,
and the stop `accessNotAdmitted`, are the model's (log entry 5). -/
def Obligations.AccessNotAdmittedHasNoStep : Prop :=
  ∀ (s : State) (off : Int) (n : Nat) (k : AccessKind) (rest : List Event),
    s.pending = .access ⟨.host, off, n, k⟩ :: rest → off < 16 → 0 < off + n →
    n ≠ 4 ∨ off % 4 ≠ 0 → step s = .refused .accessNotAdmitted

/-- The window on the host's bus (20_memory R30). That `CRC_BASE` is an opaque multiple of 4 is log
entry 3, that offset bits [3:2] select the register log entry 4, and the fault outside log entry 5. -/
def Obligations.WindowStandsAtCrcBase : Prop :=
  Config.crcBase % 4 = 0 ∧
  (∀ (m : Master) (k n : Nat) (a : AccessKind),
    Access.ofBus m (Config.crcBase + k) n a = ⟨m, k, n, a⟩) ∧
  (∀ off : Nat, off < 16 →
    WindowReg.ofOffset off =
      if (BitVec.ofNat 4 off).extractLsb' 2 2 = 0#2 then .cmd
      else if (BitVec.ofNat 4 off).extractLsb' 2 2 = 1#2 then .crc
      else if (BitVec.ofNat 4 off).extractLsb' 2 2 = 2#2 then .status
      else .errcmd) ∧
  (∀ (s : State) (addr n : Nat) (m : Master) (a : AccessKind) (rest : List Event),
    s.pending = .access (Access.ofBus m addr n a) :: rest →
    addr + n ≤ Config.crcBase ∨ Config.crcBase + 16 ≤ addr → step s = .fault .outsideWindow)

/-- The checker's state changes only in response to a host command write or a reset, and a second master is
refused (00_scope R2). That the stop is `secondMaster`, for accesses that are not admitted too, is the
model's (log entry 5). -/
def Obligations.OnlyCommandWritesAndResetsChangeTheChecker : Prop :=
  (∀ (s t : State) (e : Event) (rest : List Event), s.pending = e :: rest → step s = .next t →
    (∀ c, e ≠ .reset c) → (∀ w, e ≠ .access ⟨.host, 0x0, 4, .write w⟩) →
    t.crc = s.crc ∧ t.matched = s.matched ∧ t.checked = s.checked ∧ t.err = s.err ∧
      t.errcmd = s.errcmd ∧ t.pending = rest) ∧
  (∀ (s : State) (id : Nat) (off : Int) (n : Nat) (k : AccessKind) (rest : List Event),
    s.pending = .access ⟨.other id, off, n, k⟩ :: rest → off < 16 → 0 < off + n →
    step s = .refused .secondMaster)

/-- 10_state R11: CRC changes only by INIT, LOAD, UPDATE, FINISH or a reset; NOP, CHECK, illegal words,
reads and register writes leave it. LOAD reaches every value, the host reads it at offset `0x4`, and it
is `INIT_VALUE` after reset. -/
def Obligations.CrcIsWrittenByFourCommandsOnly : Prop :=
  (∀ (s t : State) (e : Event) (rest : List Event), s.pending = e :: rest → step s = .next t →
    t.crc ≠ s.crc →
    (∃ c, e = .reset c) ∨
    ∃ (w : Word) (i : Instr), e = .access ⟨.host, 0x0, 4, .write w⟩ ∧ decode w = some i ∧
      (i = .init ∨ (∃ v, i = .load v) ∨ (∃ b, i = .update b) ∨ i = .finish)) ∧
  (∀ (v : Crc16) (s : State), ∃ t, exec (.load v) s = .next t ∧ t.crc = v) ∧
  (∀ s : State, (readValue .crc s).extractLsb' 0 16 = s.crc ∧
    (readValue .crc s).extractLsb' 16 16 = 0#16) ∧
  State.reset.crc = 0x0000#16 ∧ State.reset.crc = initValue

/-! ## Reset and invariants -/

/-- Reset sets the whole state of the checker to zero, whatever asserted it (70_reset R120). That it is one
event between accesses, which leaves the events still pending and the values already read, is the model's
(log entry 6). What the registers then read, which R120 marks as derived, stands in
`RegistersReadZeroAfterReset`. -/
def Obligations.ResetZeroesTheChecker : Prop :=
  (State.reset.crc = 0x0000#16 ∧ State.reset.matched = false ∧ State.reset.checked = false ∧
    State.reset.err = false ∧ State.reset.errcmd = 0x00000000#32) ∧
  (∀ (s : State) (c : ResetCause) (rest : List Event), s.pending = .reset c :: rest →
    step s = .next { crc := 0x0000#16, matched := false, checked := false, err := false,
                     errcmd := 0x00000000#32, pending := rest, readLog := s.readLog })

/-- After reset every register reads 0, which 70_reset R120 derives. -/
def Obligations.RegistersReadZeroAfterReset : Prop :=
  ∀ (s : State) (c : ResetCause),
    ∃ t, runAll [.reset c, Event.rd .crc, Event.rd .status, Event.rd .errcmd] s = .next t ∧
      t.readLog = 0x00000000#32 :: 0x00000000#32 :: 0x00000000#32 :: s.readLog

/-- The registers are consistent in the state after reset (10_state R14, R16). -/
def Obligations.ResetStateIsConsistent : Prop :=
  State.reset.consistent = true

/-- Every step keeps the registers consistent: `CHECKED = 0` implies `MATCH = 0` (10_state R14, derived
there), ERRCMD is 0 while ERR is 0 and holds an illegal word while ERR is 1 (R16). -/
def Obligations.EveryStepKeepsTheRegistersConsistent : Prop :=
  ∀ s t : State, s.consistent = true → step s = .next t → t.consistent = true

/-- CHECKED and MATCH tell of the last CHECK since CRC was written or the checker reset (10_state R12,
R13), over every sequence of admitted accesses and resets. -/
def Obligations.CheckBitsTellOfTheLastCheck : Prop :=
  State.reset.checked = false ∧ State.reset.matched = false ∧
  ∀ (es : List Event) (s : State), s.checked = false → s.matched = false →
    (∀ e ∈ es, e.isAdmitted = true ∨ ∃ c, e = .reset c) →
    ∃ t, runAll es s = .next t ∧ t.checked = (lastCheck es).isSome ∧
      t.matched = decide (lastCheck es = some t.crc) ∧
      (readValue .status t).getLsbD 0 = t.matched ∧ (readValue .status t).getLsbD 1 = t.checked

/-- ERR says whether a word was illegal since reset, and ERRCMD holds the first one (10_state R15, R16),
over every sequence of admitted accesses and resets. -/
def Obligations.ErrcmdIsTheFirstIllegalWordSinceReset : Prop :=
  State.reset.err = false ∧ State.reset.errcmd = 0x00000000#32 ∧
  ∀ (es : List Event) (s : State), s.err = false → s.errcmd = 0x00000000#32 →
    (∀ e ∈ es, e.isAdmitted = true ∨ ∃ c, e = .reset c) →
    ∃ t, runAll es s = .next t ∧ t.err = !(illegalSinceReset es).isEmpty ∧
      t.errcmd = (illegalSinceReset es).headD 0x00000000#32 ∧
      (readValue .status t).getLsbD 2 = t.err ∧ readValue .errcmd t = t.errcmd

/-! ## The frame check -/

/-- The canonical frame check of 41_frame_check R84 (derived there), with any NOPs, illegal words and
register accesses in between, started by INIT, by `LOAD #0x0000`, or by nothing in a state whose CRC is
0, as after reset (70_reset R122, R124). -/
def Obligations.CanonicalFrameCheckReportsFrameCrcOk : Prop :=
  ∀ (st : FrameStart) (p : List Byte) (hi lo : Byte) (es : List Event) (s : State),
    (st = .afterReset → s.crc = 0x0000#16) →
    (∀ e ∈ es, e.isAdmitted = true) → commandsOf es = frameCheckFrom st p hi lo →
    ∃ t, runAll es s = .next t ∧ t.crc = compute p ∧ t.checked = true ∧
      t.matched = frameCrcOk p hi lo ∧
      t.err = (s.err || !(illegalWordsOf es).isEmpty) ∧ t.pending = s.pending

/-- The pseudo-commands COMPUTE and CHECKFRAME of 30_encoding R55 leave `compute(d)` in CRC and the
frame's verdict in MATCH (both marked derived there and in 41_frame_check R84). FEED is the UPDATEs of its
bytes: it folds them into CRC and clears MATCH and CHECKED (40_crc_ops R68), and feeding nothing changes
nothing. Each clause gives the whole next state. -/
def Obligations.PseudoCommandsComputeAndCheck : Prop :=
  (∀ (d : List Byte) (s : State), execAll (feed d) s =
    .next (if d = [] then s
      else { s with crc := fold s.crc d, matched := false, checked := false })) ∧
  (∀ (d : List Byte) (s : State), execAll (computeCommands d) s =
    .next { s with crc := compute d, matched := false, checked := false }) ∧
  (∀ (d : List Byte) (hi lo : Byte) (s : State), execAll (checkFrame d hi lo) s =
    .next { s with crc := compute d, matched := frameCrcOk d hi lo, checked := true })

/-- The residue form of the frame check gives the same MATCH as the canonical one and leaves CRC zero on
a match only (41_frame_check R85, derived there), on the machine. -/
def Obligations.ResidueCheckAgreesWithCanonicalCheck : Prop :=
  ∀ (p : List Byte) (hi lo : Byte) (s : State), ∃ t u,
    execAll (residueCheck p hi lo) s = .next t ∧ execAll (checkFrame p hi lo) s = .next u ∧
    t.matched = u.matched ∧ t.checked = true ∧ u.checked = true ∧
    (t.crc = 0x0000#16 ↔ u.matched = true)

/-- A well-formed sender's frame passes the canonical check, and fails it once any single payload bit is
flipped (41_frame_check R89 and R88, derived there), on the machine. -/
def Obligations.SenderFramePassesAndFlippedFrameFails : Prop :=
  ∀ (p : List Byte) (s : State),
    frameCrcOk p (senderHi p) (senderLo p) = true ∧
    (∃ t, execAll (checkFrame p (senderHi p) (senderLo p)) s = .next t ∧
      t.matched = true ∧ t.checked = true) ∧
    (∀ i j : Nat, i < p.length → j < 8 →
      ∃ t, execAll (checkFrame (flipBit p i j) (senderHi p) (senderLo p)) s = .next t ∧
        t.matched = false ∧ t.checked = true)

/-- What 70_reset R124 (e) and (f) let the host take as validated is exactly a frame whose CRC is right
and in which no word was illegal, with ERR clear before it (`frameValidated` is our reading, log entry 12). -/
def Obligations.ValidatedFramesAreRightAndUndisturbed : Prop :=
  ∀ (st : FrameStart) (p : List Byte) (hi lo : Byte) (es : List Event) (s : State),
    (st = .afterReset → s.crc = 0x0000#16) →
    (∀ e ∈ es, e.isAdmitted = true) → commandsOf es = frameCheckFrom st p hi lo →
    ∃ t, runAll es s = .next t ∧
      (frameValidated s t = true ↔
        s.err = false ∧ illegalWordsOf es = [] ∧ frameCrcOk p hi lo = true)

/-- A rolling CRC read by the host and loaded back later resumes exactly where it left off, whatever ran
in between (40_crc_ops R67, derived there). -/
def Obligations.LoadResumesASavedCrc : Prop :=
  ∀ (d1 d2 : List Byte) (s : State), ∃ (t : State) (v : Word),
    runAll (commandEvents (feed d1) ++ [Event.rd .crc]) s = .next t ∧ t.readLog = v :: s.readLog ∧
    ∀ u : State, ∃ u', execAll (.load (v.extractLsb' 0 16) :: feed d2) u = .next u' ∧
      u'.crc = fold s.crc (d1 ++ d2)

/-- The assembler on commands with their operands already read (30_encoding R54): the words it writes and
the operands it refuses. A missing operand and a `.word` above 32 bits are refused by log entry 8. -/
def Obligations.AssemblerWritesTheCommandWords : Prop :=
  assemble (.command .nop none) = some 0x00000000#32 ∧
  assemble (.command .init none) = some 0x10000000#32 ∧
  assemble (.command .finish none) = some 0x40000000#32 ∧
  (∀ v : Nat, assemble (.command .load (some v)) =
    if v ≤ 0xFFFF then some (0x20000000#32 ||| BitVec.ofNat 32 v) else none) ∧
  (∀ b : Nat, assemble (.command .update (some b)) =
    if b ≤ 0xFF then some (0x30000000#32 ||| BitVec.ofNat 32 b) else none) ∧
  (∀ t : Nat, assemble (.command .check (some t)) =
    if t ≤ 0xFFFF then some (0x50000000#32 ||| BitVec.ofNat 32 t) else none) ∧
  (∀ (m : Mnemonic) (n : Nat), m = .nop ∨ m = .init ∨ m = .finish →
    assemble (.command m (some n)) = none) ∧
  (∀ w : Nat, w ≤ 0xFFFFFFFF → assemble (.word w) = some (BitVec.ofNat 32 w))
end

