-- ==== Sys2Proof/Laws/Crc.lean ====
section
/-! SUPPORT. The laws of the shift register: it is linear over GF(2) bit by bit and byte by byte, and
`fold` runs over appended bytes in order (20_memory R35). -/

namespace Sys2Proof.Machine

/-- The data bit enters an empty place, so OR and XOR agree. -/
theorem shiftIn_eq_xor (r : Crc16) (bit : Bool) :
    shiftIn r bit = (r <<< 1) ^^^ (BitVec.ofBool bit).setWidth 16 ^^^
      (if r.getLsbD 15 then poly else 0#16) := by
  have h : (r <<< 1) ||| (BitVec.ofBool bit).setWidth 16 =
      (r <<< 1) ^^^ (BitVec.ofBool bit).setWidth 16 := by
    apply BitVec.eq_of_getLsbD_eq
    intro i hi
    cases bit <;> rcases i with _ | i <;> simp
  simp only [shiftIn, h]
  split <;> simp_all

/-- One shift is linear in the register and the bit together. -/
theorem shiftIn_xor (r q : Crc16) (a b : Bool) :
    shiftIn (r ^^^ q) (a ^^ b) = shiftIn r a ^^^ shiftIn q b := by
  have hb : (BitVec.ofBool (a ^^ b)).setWidth 16 =
      (BitVec.ofBool a).setWidth 16 ^^^ (BitVec.ofBool b).setWidth 16 := by
    cases a <;> cases b <;> rfl
  have hp : (if (r ^^^ q).getLsbD 15 then poly else 0#16) =
      (if r.getLsbD 15 then poly else 0#16) ^^^ (if q.getLsbD 15 then poly else 0#16) := by
    rw [BitVec.getLsbD_xor]
    cases r.getLsbD 15 <;> cases q.getLsbD 15 <;> simp
  simp only [shiftIn_eq_xor, hb, hp, BitVec.shiftLeft_xor_distrib]
  ac_rfl

/-- The eight bits of a byte, shift by shift. -/
theorem update_eq (c : Crc16) (b : Byte) : update c b =
    shiftIn (shiftIn (shiftIn (shiftIn (shiftIn (shiftIn (shiftIn (shiftIn c
      (b.getLsbD 7)) (b.getLsbD 6)) (b.getLsbD 5)) (b.getLsbD 4)) (b.getLsbD 3))
      (b.getLsbD 2)) (b.getLsbD 1)) (b.getLsbD 0) := rfl

/-- `update` is linear in the register and the byte together. -/
theorem update_xor (c d : Crc16) (a b : Byte) :
    update (c ^^^ d) (a ^^^ b) = update c a ^^^ update d b := by
  simp only [update_eq, BitVec.getLsbD_xor, shiftIn_xor]

@[simp] theorem update_zero_zero : update 0#16 0#8 = 0#16 := by decide

@[simp] theorem fold_nil (c : Crc16) : fold c [] = c := rfl
@[simp] theorem fold_cons (c : Crc16) (b : Byte) (d : List Byte) :
    fold c (b :: d) = fold (update c b) d := rfl

/-- `fold` runs over the first bytes, then over the rest. -/
theorem fold_append (c : Crc16) (d e : List Byte) : fold c (d ++ e) = fold (fold c d) e := by
  induction d generalizing c with
  | nil => rfl
  | cons b d ih => exact ih (update c b)

/-- `fold` is linear over byte sequences of equal length. -/
theorem fold_xor {d e : List Byte} (h : d.length = e.length) (c c' : Crc16) :
    fold (c ^^^ c') (List.zipWith (· ^^^ ·) d e) = fold c d ^^^ fold c' e := by
  induction d generalizing e c c' with
  | nil => cases e <;> simp_all
  | cons a d ih =>
    cases e with
    | nil => simp at h
    | cons b e => simp only [List.zipWith_cons_cons, fold_cons, update_xor]; exact ih (by simpa using h) _ _

end Sys2Proof.Machine
end

