-- ==== Sys2Proof/Laws/Decode.lean ====
section
/-! SUPPORT. The fields of a word and the word of some fields are inverse to each other (30_encoding R46). -/

namespace Sys2Proof

@[simp] theorem ofWord_toWord (c : CommandWord) : CommandWord.ofWord c.toWord = c := by
  obtain ⟨op, rsv, imm⟩ := c
  simp only [CommandWord.ofWord, CommandWord.toWord, CommandWord.mk.injEq]
  refine ⟨?_, ?_, ?_⟩ <;> apply BitVec.eq_of_getLsbD_eq <;> intro i hi <;>
    simp only [BitVec.getLsbD_extractLsb', BitVec.getLsbD_append, hi, decide_true, Bool.true_and]
  · rw [if_neg (by omega), if_neg (by omega)]; congr 1; omega
  · rw [if_neg (by omega), if_pos (by omega)]; congr 1; omega
  · rw [if_pos (by omega)]; congr 1; omega

@[simp] theorem toWord_ofWord (w : Word) : (CommandWord.ofWord w).toWord = w := by
  simp only [CommandWord.ofWord, CommandWord.toWord]
  apply BitVec.eq_of_getLsbD_eq
  intro i hi
  simp only [BitVec.getLsbD_append, BitVec.getLsbD_extractLsb']
  split_ifs
  · simp; omega
  · have : 16 + (i - 16) = i := by omega
    simp [this]; omega
  · have : 28 + (i - 16 - 12) = i := by omega
    simp [this]; omega

end Sys2Proof
end

