-- ==== Sys2Proof/Laws/State.lean ====
section
/-! SUPPORT. One lemma per field per update of State, so that no later proof unfolds a record update. -/

namespace Sys2Proof.Machine

variable (s : State) (w : Word) (v : Crc16) (m : Bool) (c : ResetCause) (r : WindowReg) (e : Event)

@[simp] theorem clearCheck_crc : (clearCheck s).crc = s.crc := rfl
@[simp] theorem clearCheck_matched : (clearCheck s).matched = false := rfl
@[simp] theorem clearCheck_checked : (clearCheck s).checked = false := rfl
@[simp] theorem clearCheck_err : (clearCheck s).err = s.err := rfl
@[simp] theorem clearCheck_errcmd : (clearCheck s).errcmd = s.errcmd := rfl
@[simp] theorem clearCheck_pending : (clearCheck s).pending = s.pending := rfl
@[simp] theorem clearCheck_readLog : (clearCheck s).readLog = s.readLog := rfl

@[simp] theorem recordCheck_crc : (recordCheck m s).crc = s.crc := rfl
@[simp] theorem recordCheck_matched : (recordCheck m s).matched = m := rfl
@[simp] theorem recordCheck_checked : (recordCheck m s).checked = true := rfl
@[simp] theorem recordCheck_err : (recordCheck m s).err = s.err := rfl
@[simp] theorem recordCheck_errcmd : (recordCheck m s).errcmd = s.errcmd := rfl
@[simp] theorem recordCheck_pending : (recordCheck m s).pending = s.pending := rfl
@[simp] theorem recordCheck_readLog : (recordCheck m s).readLog = s.readLog := rfl

@[simp] theorem writeCrc_crc : (writeCrc v s).crc = v := rfl
@[simp] theorem writeCrc_matched : (writeCrc v s).matched = false := rfl
@[simp] theorem writeCrc_checked : (writeCrc v s).checked = false := rfl
@[simp] theorem writeCrc_err : (writeCrc v s).err = s.err := rfl
@[simp] theorem writeCrc_errcmd : (writeCrc v s).errcmd = s.errcmd := rfl
@[simp] theorem writeCrc_pending : (writeCrc v s).pending = s.pending := rfl
@[simp] theorem writeCrc_readLog : (writeCrc v s).readLog = s.readLog := rfl

@[simp] theorem raiseIllegalCommand_crc : (raiseIllegalCommand w s).crc = s.crc := rfl
@[simp] theorem raiseIllegalCommand_matched : (raiseIllegalCommand w s).matched = s.matched := rfl
@[simp] theorem raiseIllegalCommand_checked : (raiseIllegalCommand w s).checked = s.checked := rfl
@[simp] theorem raiseIllegalCommand_err : (raiseIllegalCommand w s).err = true := rfl
@[simp] theorem raiseIllegalCommand_errcmd :
    (raiseIllegalCommand w s).errcmd = if s.err then s.errcmd else w := rfl
@[simp] theorem raiseIllegalCommand_pending : (raiseIllegalCommand w s).pending = s.pending := rfl
@[simp] theorem raiseIllegalCommand_readLog : (raiseIllegalCommand w s).readLog = s.readLog := rfl

@[simp] theorem applyReset_crc : (applyReset c s).crc = 0#16 := rfl
@[simp] theorem applyReset_matched : (applyReset c s).matched = false := rfl
@[simp] theorem applyReset_checked : (applyReset c s).checked = false := rfl
@[simp] theorem applyReset_err : (applyReset c s).err = false := rfl
@[simp] theorem applyReset_errcmd : (applyReset c s).errcmd = 0#32 := rfl
@[simp] theorem applyReset_pending : (applyReset c s).pending = s.pending := rfl
@[simp] theorem applyReset_readLog : (applyReset c s).readLog = s.readLog := rfl

@[simp] theorem regRead_crc : (regRead r s).crc = s.crc := rfl
@[simp] theorem regRead_matched : (regRead r s).matched = s.matched := rfl
@[simp] theorem regRead_checked : (regRead r s).checked = s.checked := rfl
@[simp] theorem regRead_err : (regRead r s).err = s.err := rfl
@[simp] theorem regRead_errcmd : (regRead r s).errcmd = s.errcmd := rfl
@[simp] theorem regRead_pending : (regRead r s).pending = s.pending := rfl
@[simp] theorem regRead_readLog : (regRead r s).readLog = readValue r s :: s.readLog := rfl

@[simp] theorem issue_pending : (s.issue e).pending = s.pending ++ [e] := rfl
@[simp] theorem issue_crc : (s.issue e).crc = s.crc := rfl
@[simp] theorem issue_matched : (s.issue e).matched = s.matched := rfl
@[simp] theorem issue_checked : (s.issue e).checked = s.checked := rfl
@[simp] theorem issue_err : (s.issue e).err = s.err := rfl
@[simp] theorem issue_errcmd : (s.issue e).errcmd = s.errcmd := rfl
@[simp] theorem issue_readLog : (s.issue e).readLog = s.readLog := rfl

@[simp] theorem withFetchWord_pending (nbits n : Nat) : (s.withFetchWord nbits n).pending =
    Event.cmdWrite (BitVec.ofNat 32 (n % 2 ^ nbits)) :: s.pending := rfl

/-- A register reads the same in two states that agree on the checker's five pieces of state. -/
theorem readValue_congr {s t : State} (hc : s.crc = t.crc) (hm : s.matched = t.matched)
    (hk : s.checked = t.checked) (he : s.err = t.err) (hw : s.errcmd = t.errcmd) :
    readValue r s = readValue r t := by
  cases r <;> simp [readValue, statusWord, hc, hm, hk, he, hw]

end Sys2Proof.Machine
end

