-- ==== Sys2Proof/Laws/Ops.lean ====
section
/-! SUPPORT. What each shared operation of the step can do, said once. -/

namespace Sys2Proof.Machine

/-- The registers stand at offsets that are admitted, touch the window and select them. -/
@[simp] theorem ofOffset_offset (r : WindowReg) : WindowReg.ofOffset r.offset = r := by
  cases r <;> rfl

@[simp] theorem touchesWindow_regRead (r : WindowReg) :
    (Access.regRead r.offset).touchesWindow = true := by cases r <;> rfl

@[simp] theorem touchesWindow_regWrite (r : WindowReg) (v : Word) :
    (Access.regWrite r.offset v).touchesWindow = true := by cases r <;> rfl

@[simp] theorem admitted_regRead (r : WindowReg) :
    (Access.regRead r.offset).admitted = true := by cases r <;> rfl

@[simp] theorem admitted_regWrite (r : WindowReg) (v : Word) :
    (Access.regWrite r.offset v).admitted = true := by cases r <;> rfl

/-- An access touches the window when it starts below the window's end and ends above its start. -/
theorem touchesWindow_iff (a : Access) :
    a.touchesWindow = true ↔ a.offset < 16 ∧ 0 < a.offset + a.bytes := by
  simp only [Access.touchesWindow, Bool.and_eq_true, decide_eq_true_eq]
  exact Iff.rfl

/-- An access is admitted when it is a word at one of the four offsets (20_memory R31). -/
theorem admitted_iff (a : Access) : a.admitted = true ↔
    a.bytes = 4 ∧ (a.offset = 0x0 ∨ a.offset = 0x4 ∨ a.offset = 0x8 ∨ a.offset = 0xC) := by
  have hw : (Config.windowBytes : Int) = 16 := rfl
  simp only [Access.admitted, hw, Bool.and_eq_true, beq_iff_eq, decide_eq_true_eq]
  omega

/-- Every admitted access of the host is a register read or a register write. -/
theorem admitted_cases {a : Access} (hm : a.master = .host) (ha : a.admitted = true) :
    ∃ r : WindowReg, a = Access.regRead r.offset ∨ ∃ v, a = Access.regWrite r.offset v := by
  obtain ⟨m, off, n, k⟩ := a
  obtain ⟨hn, hoff⟩ := (admitted_iff _).1 ha
  simp only at hm hn hoff
  subst hm hn
  obtain ⟨r, hr⟩ : ∃ r : WindowReg, off = r.offset := by
    rcases hoff with rfl | rfl | rfl | rfl
    exacts [⟨.cmd, rfl⟩, ⟨.crc, rfl⟩, ⟨.status, rfl⟩, ⟨.errcmd, rfl⟩]
  subst hr
  cases k with
  | read => exact ⟨r, .inl rfl⟩
  | write v => exact ⟨r, .inr ⟨v, rfl⟩⟩

/-- A command completes in every state, and this is all a command can do. -/
theorem exec_cases (i : Instr) (s : State) :
    (i = .nop ∧ exec i s = .next s) ∨
    (i = .init ∧ exec i s = .next (writeCrc initValue s)) ∨
    (∃ v, i = .load v ∧ exec i s = .next (writeCrc v s)) ∨
    (∃ b, i = .update b ∧ exec i s = .next (writeCrc (update s.crc b) s)) ∨
    (i = .finish ∧ exec i s = .next (writeCrc (update (update s.crc 0x00#8) 0x00#8) s)) ∨
    (∃ t, i = .check t ∧ exec i s = .next (recordCheck (s.crc == t) s)) := by
  cases i <;> simp [exec, execNop, execInit, execLoad, execUpdate, execFinish, execCheck]

/-- A read of a register. -/
@[simp] theorem performEvent_rd (r : WindowReg) (s : State) :
    performEvent (.rd r) s = .next (regRead r s) := by
  cases r <;> rfl

/-- A write of a register. -/
@[simp] theorem performEvent_wr (r : WindowReg) (v : Word) (s : State) :
    performEvent (.wr r v) s = regWrite r v s := by
  cases r <;> rfl

@[simp] theorem performEvent_cmdWrite (w : Word) (s : State) :
    performEvent (.cmdWrite w) s = issueCommand w s := rfl

@[simp] theorem performEvent_reset (c : ResetCause) (s : State) :
    performEvent (.reset c) s = .next (applyReset c s) := rfl

/-- All an event can do when it has a next state: a read, a write of a read-only register, a legal
command, an illegal word, or a reset. -/
theorem performEvent_next {e : Event} {s t : State} (h : performEvent e s = .next t) :
    (∃ r, e = .rd r ∧ t = regRead r s) ∨
    (∃ r v, e = .wr r v ∧ r ≠ .cmd ∧ t = s) ∨
    (∃ w i, e = .cmdWrite w ∧ decode w = some i ∧ exec i s = .next t) ∨
    (∃ w, e = .cmdWrite w ∧ decode w = none ∧ t = raiseIllegalCommand w s) ∨
    (∃ c, e = .reset c ∧ t = applyReset c s) := by
  cases e with
  | reset c =>
    simp only [performEvent_reset, Host.Outcome.next.injEq] at h
    exact .inr (.inr (.inr (.inr ⟨c, rfl, h.symm⟩)))
  | access a =>
    have hm : a.master = .host := by
      cases hm : a.master with
      | host => rfl
      | other id => simp only [performEvent, performAccess, hm] at h; split at h <;> cases h
    have ha : a.admitted = true := by
      cases ha : a.admitted with
      | true => rfl
      | false => simp only [performEvent, performAccess, hm, ha] at h; split at h <;> cases h
    obtain ⟨r, rfl | ⟨v, rfl⟩⟩ := admitted_cases hm ha
    · have h' : performEvent (.rd r) s = .next t := h
      simp only [performEvent_rd, Host.Outcome.next.injEq] at h'
      exact .inl ⟨r, rfl, h'.symm⟩
    · have h' : performEvent (.wr r v) s = .next t := h
      rw [performEvent_wr] at h'
      by_cases hr : r = .cmd
      · subst hr
        simp only [regWrite, issueCommand] at h'
        cases hd : decode v with
        | some i =>
          rw [hd] at h'
          exact .inr (.inr (.inl ⟨v, i, rfl, hd, h'⟩))
        | none =>
          rw [hd] at h'
          cases h'
          exact .inr (.inr (.inr (.inl ⟨v, rfl, hd, rfl⟩)))
      · have : t = s := by cases r <;> simp_all [regWrite]
        exact .inr (.inl ⟨r, v, rfl, hr, this⟩)

/-- The step takes the next event off and performs it. -/
theorem step_cons {s : State} {e : Event} {rest : List Event} (h : s.pending = e :: rest) :
    step s = performEvent e { s with pending := rest } := by
  simp [step, performNext, h]

/-- With no event there is no step (70_reset R127). -/
theorem step_nil {s : State} (h : s.pending = []) : step s = .refused .hostStopped := by
  simp [step, performNext, h]

/-- A step that has a next state took an event. -/
theorem step_next {s t : State} (h : step s = .next t) :
    ∃ e rest, s.pending = e :: rest ∧ performEvent e { s with pending := rest } = .next t := by
  cases hp : s.pending with
  | nil => rw [step_nil hp] at h; cases h
  | cons e rest => exact ⟨e, rest, rfl, by rw [← step_cons hp]; exact h⟩

end Sys2Proof.Machine
end

