-- ==== Sys2Proof/Laws/PerInstr.lean ====
section
/-! SUPPORT. Facts stated for every command, one lemma per constructor of Instr. -/

namespace Sys2Proof.Laws.WordFields

/-- The word of a command splits into the fields 30_encoding R47 and R48 give it, and these are well
formed (30_encoding R49, R50). -/
def Statement (i : Instr) : Prop :=
  CommandWord.ofWord (encode i) = i.fields ∧ i.wellFormed = true

theorem nop : Statement .nop := ⟨ofWord_toWord _, rfl⟩

theorem init : Statement .init := ⟨ofWord_toWord _, rfl⟩

theorem load (v : Crc16) : Statement (.load v) := ⟨ofWord_toWord _, rfl⟩

theorem update (b : Byte) : Statement (.update b) := by
  refine ⟨ofWord_toWord _, ?_⟩
  have hb : b.toNat < 256 := b.isLt
  have h : (b.setWidth 16).toNat < 256 := by rw [BitVec.toNat_setWidth]; omega
  have ho : CommandWord.byteOperandOk (Instr.fields (.update b)) = true := by
    simp only [CommandWord.byteOperandOk, Instr.fields, h, decide_true, Bool.or_true]
  simp only [Instr.wellFormed, CommandWord.wellFormed, ho, Bool.and_true]
  rfl

theorem finish : Statement .finish := ⟨ofWord_toWord _, rfl⟩

theorem check (t : Crc16) : Statement (.check t) := ⟨ofWord_toWord _, rfl⟩

end Sys2Proof.Laws.WordFields
end

