-- ==== Sys2Proof/Laws/Run.lean ====
section
/-! SUPPORT. How a sequence of events, or of commands, is performed: one first, then the rest. -/

namespace Sys2Proof.Machine

/-- `run` is the host's own run of the machine. -/
theorem run_eq_core_run (n : Nat) (s : State) : run n s = Sys2Proof.core.run n s := by
  induction n generalizing s with
  | zero => rfl
  | succ n ih =>
    have hs : Sys2Proof.core.step s = step s := rfl
    simp only [run, Host.Core.run, hs]
    cases step s with
    | next t => exact ih t
    | fault f => rfl
    | refused r => rfl

@[simp] theorem runAll_nil (s : State) : runAll [] s = .next s := rfl

/-- No event looks at the events still pending, and none changes them (20_memory R38). -/
theorem performEvent_pending {e : Event} {s t : State} (h : performEvent e s = .next t)
    (p : List Event) :
    t.pending = s.pending ∧
      performEvent e { s with pending := p } = .next { t with pending := p } := by
  rcases performEvent_next h with ⟨r, rfl, rfl⟩ | ⟨r, v, rfl, hr, rfl⟩ | ⟨w, i, rfl, hd, hx⟩ |
    ⟨w, rfl, hd, rfl⟩ | ⟨c, rfl, rfl⟩
  · refine ⟨rfl, ?_⟩
    rw [performEvent_rd]
    cases r <;> rfl
  · refine ⟨rfl, ?_⟩
    rw [performEvent_wr]
    cases r <;> first | exact absurd rfl hr | rfl
  · have hi : issueCommand w { s with pending := p } = exec i { s with pending := p } := by
      simp only [issueCommand, hd]
    rw [performEvent_cmdWrite, hi]
    rcases exec_cases i s with ⟨rfl, he⟩ | ⟨rfl, he⟩ | ⟨v, rfl, he⟩ | ⟨b, rfl, he⟩ | ⟨rfl, he⟩ |
      ⟨u, rfl, he⟩ <;> rw [he] at hx <;> cases hx <;> exact ⟨rfl, rfl⟩
  · refine ⟨rfl, ?_⟩
    simp only [performEvent_cmdWrite, issueCommand, hd]
    rfl
  · exact ⟨rfl, rfl⟩

/-- The first event of a sequence is performed, then the rest run from its next state. -/
theorem runAll_cons {e : Event} {es : List Event} {s t : State} (h : performEvent e s = .next t) :
    runAll (e :: es) s = runAll es t := by
  have hp := performEvent_pending h (es ++ s.pending)
  have hs : step { s with pending := (e :: es) ++ s.pending } =
      .next { t with pending := es ++ s.pending } := by
    rw [step_cons (e := e) (rest := es ++ s.pending) rfl]; exact hp.2
  simp only [runAll, List.length_cons, run, hs, hp.1]

@[simp] theorem execAll_nil (s : State) : execAll [] s = .next s := rfl

/-- The first command of a list executes, then the rest run from its next state. -/
theorem execAll_cons {i : Instr} {is : List Instr} {s t : State} (h : exec i s = .next t) :
    execAll (i :: is) s = execAll is t := by
  simp only [execAll, h]

/-- Feeding bytes folds them into CRC and clears the check bits, if there is a byte (30_encoding R55). -/
theorem execAll_feed_append (d : List Byte) (is : List Instr) (s : State)
    (hm : s.matched = false) (hk : s.checked = false) :
    execAll (feed d ++ is) s = execAll is { s with crc := fold s.crc d } := by
  induction d generalizing s with
  | nil => rfl
  | cons b d ih =>
    have h : exec (.update b) s = .next { s with crc := update s.crc b } := by
      cases s; simp_all [exec, execUpdate, writeCrc, clearCheck]
    rw [feed, List.map_cons, List.cons_append, execAll_cons h]
    exact ih _ hm hk

end Sys2Proof.Machine
end

