-- ==== Sys2Proof/Laws/Safety.lean ====
section
/-! SUPPORT. What the claims' readings of an event say of a register read, a register write and a reset. -/

namespace Sys2Proof.Machine

@[simp] theorem isAdmitted_rd (r : WindowReg) : (Event.rd r).isAdmitted = true := by cases r <;> rfl

@[simp] theorem isAdmitted_wr (r : WindowReg) (v : Word) : (Event.wr r v).isAdmitted = true := by
  cases r <;> rfl

/-- An admitted access of the host is a register read or a register write. -/
theorem isAdmitted_cases {e : Event} (h : e.isAdmitted = true) :
    (∃ r, e = .rd r) ∨ ∃ r v, e = .wr r v := by
  cases e with
  | reset c => cases h
  | access a =>
    simp only [Event.isAdmitted, Bool.and_eq_true, beq_iff_eq] at h
    obtain ⟨r, rfl | ⟨v, rfl⟩⟩ := admitted_cases h.1 h.2
    exacts [.inl ⟨r, rfl⟩, .inr ⟨r, v, rfl⟩]

@[simp] theorem cmdWord?_rd (r : WindowReg) : (Event.rd r).cmdWord? = none := by cases r <;> rfl

@[simp] theorem cmdWord?_cmdWrite (w : Word) : (Event.cmdWrite w).cmdWord? = some w := rfl

theorem cmdWord?_wr {r : WindowReg} (h : r ≠ .cmd) (v : Word) : (Event.wr r v).cmdWord? = none := by
  cases r <;> first | exact absurd rfl h | rfl

@[simp] theorem command?_rd (r : WindowReg) : (Event.rd r).command? = none := by
  simp [Event.command?]

@[simp] theorem command?_cmdWrite (w : Word) : (Event.cmdWrite w).command? = commandOfWord w := by
  simp [Event.command?]

theorem command?_wr {r : WindowReg} (h : r ≠ .cmd) (v : Word) : (Event.wr r v).command? = none := by
  simp [Event.command?, cmdWord?_wr h]

@[simp] theorem illegalWord?_rd (r : WindowReg) : (Event.rd r).illegalWord? = none := by
  simp [Event.illegalWord?]

@[simp] theorem illegalWord?_cmdWrite (w : Word) :
    (Event.cmdWrite w).illegalWord? = if (decode w).isNone then some w else none := by
  simp only [Event.illegalWord?, cmdWord?_cmdWrite, Option.filter]

theorem illegalWord?_wr {r : WindowReg} (h : r ≠ .cmd) (v : Word) :
    (Event.wr r v).illegalWord? = none := by
  simp [Event.illegalWord?, cmdWord?_wr h]

/-- The step's readings follow the event's form: a read, a write or a reset. -/
@[simp] theorem lastCheckNext_rd (l : Option Crc16) (r : WindowReg) :
    lastCheckNext l (.rd r) = l := by
  show lastCheckAfter l (Event.rd r).command? = l
  rw [command?_rd]; rfl

theorem lastCheckNext_wr {r : WindowReg} (h : r ≠ .cmd) (l : Option Crc16) (v : Word) :
    lastCheckNext l (.wr r v) = l := by
  show lastCheckAfter l (Event.wr r v).command? = l
  rw [command?_wr h]; rfl

@[simp] theorem lastCheckNext_cmdWrite (l : Option Crc16) (w : Word) :
    lastCheckNext l (.cmdWrite w) = lastCheckAfter l (commandOfWord w) := by
  show lastCheckAfter l (Event.cmdWrite w).command? = _
  rw [command?_cmdWrite]

@[simp] theorem illegalNext_rd (ws : List Word) (r : WindowReg) :
    illegalNext ws (.rd r) = ws := by
  show ws ++ (Event.rd r).illegalWord?.toList = ws
  rw [illegalWord?_rd]; exact List.append_nil ws

theorem illegalNext_wr {r : WindowReg} (h : r ≠ .cmd) (ws : List Word) (v : Word) :
    illegalNext ws (.wr r v) = ws := by
  show ws ++ (Event.wr r v).illegalWord?.toList = ws
  rw [illegalWord?_wr h]; exact List.append_nil ws

@[simp] theorem illegalNext_cmdWrite (ws : List Word) (w : Word) :
    illegalNext ws (.cmdWrite w) = ws ++ (if (decode w).isNone then [w] else []) := by
  show ws ++ (Event.cmdWrite w).illegalWord?.toList = _
  rw [illegalWord?_cmdWrite]; split <;> rfl

end Sys2Proof.Machine
end

