-- ==== Sys2Proof/Tests/Slice0.lean ====
section
/-! SUPPORT. Tests on fixed values, whose expected results are those of spec/95_test_vectors.md or of the
rule named, and the witnesses that the hypotheses of each statement of Obligations can be met. -/

namespace Sys2Proof.Tests

open Sys2Proof Sys2Proof.Machine

/-- The next state of an outcome, if it has one. -/
def nextOf (o : Host.Outcome State Fault Refusal) : Option State :=
  match o with
  | .next s => some s
  | .fault _ => none
  | .refused _ => none

/-- The fault of an outcome, if it is one. -/
def faultOf (o : Host.Outcome State Fault Refusal) : Option Fault :=
  match o with
  | .next _ => none
  | .fault f => some f
  | .refused _ => none

/-- The refusal of an outcome, if it is one. -/
def refusalOf (o : Host.Outcome State Fault Refusal) : Option Refusal :=
  match o with
  | .next _ => none
  | .fault _ => none
  | .refused r => some r

/-- A checker with the given CRC, MATCH and CHECKED set, one event pending. -/
def checkedState (c : Crc16) (es : List Event) : State :=
  { State.reset with crc := c, matched := true, checked := true, pending := es }

/-- What a step leaves in CRC, STATUS and ERRCMD. -/
def view (o : Host.Outcome State Fault Refusal) : Option (Crc16 × Word × Word) :=
  (nextOf o).map fun s => (s.crc, readValue .status s, readValue .errcmd s)

/-- One step on a word written to CMD. -/
def stepOn (s : State) (w : Nat) : Option (Crc16 × Word × Word) := view (step (s.withFetchWord 32 w))

/-! ## WellFormed: an ill-formed word for each check (30_encoding R49, R50) -/

theorem test_wf_refuses_rsv : (CommandWord.mk 0x2#4 1#12 0#16).wellFormed = false := by decide
theorem test_wf_refuses_reserved_op : (CommandWord.mk 0x6#4 0#12 0#16).wellFormed = false := by decide
theorem test_wf_refuses_operand_on_nop : (CommandWord.mk 0x0#4 0#12 1#16).wellFormed = false := by decide
theorem test_wf_refuses_operand_on_init : (CommandWord.mk 0x1#4 0#12 0x8000#16).wellFormed = false := by decide
theorem test_wf_refuses_operand_on_finish : (CommandWord.mk 0x4#4 0#12 1#16).wellFormed = false := by decide
theorem test_wf_refuses_wide_update : (CommandWord.mk 0x3#4 0#12 0x0100#16).wellFormed = false := by decide
theorem test_wf_takes_legal_words :
    (CommandWord.mk 0x3#4 0#12 0x00FF#16).wellFormed = true ∧
    (CommandWord.mk 0x5#4 0#12 0xFFFF#16).wellFormed = true := by decide

/-! ## Decoding, from words written out (30_encoding R47; 95 V-E, V-X) -/

theorem test_decode_nop : decodeTableWord 32 0x00000000 = some .nop := by decide
theorem test_decode_init : decodeTableWord 32 0x10000000 = some .init := by decide
theorem test_decode_load : decodeTableWord 32 0x2000BEEF = some (.load 0xBEEF#16) := by decide
theorem test_decode_update : decodeTableWord 32 0x300000A5 = some (.update 0xA5#8) := by decide
theorem test_decode_finish : decodeTableWord 32 0x40000000 = some .finish := by decide
theorem test_decode_check : decodeTableWord 32 0x500031C3 = some (.check 0x31C3#16) := by decide
theorem test_decode_refuses_illegal_words :
    ([0x00000001, 0x00010000, 0x10008000, 0x20010000, 0x30000100, 0x3FFF0000, 0x40000001, 0x50FF0000,
      0x60000000, 0x7FFFFFFF, 0x80000000, 0xF0000000, 0xFFFFFFFF] : List Nat).all
      (fun w => decodeTableWord 32 w == none) = true := by decide

/-! ## One step per command (95 V-E) -/

theorem test_nop_keeps_check_bits :
    stepOn (checkedState 0x1234#16 []) 0x00000000 = some (0x1234#16, 0x3#32, 0#32) := by decide +kernel
theorem test_init_clears :
    stepOn (checkedState 0x1234#16 []) 0x10000000 = some (0x0000#16, 0x0#32, 0#32) := by decide +kernel
theorem test_load_of_same_value_clears_check_bits :
    stepOn (checkedState 0x1234#16 []) 0x20001234 = some (0x1234#16, 0x0#32, 0#32) := by decide +kernel
theorem test_update_with_feedback :
    stepOn (checkedState 0x1234#16 []) 0x30000000 = some (0x0673#16, 0x0#32, 0#32) := by decide +kernel
theorem test_finish_from_all_ones :
    stepOn (checkedState 0xFFFF#16 []) 0x40000000 = some (0x1D0F#16, 0x0#32, 0#32) := by decide +kernel
theorem test_check_mismatch :
    stepOn (checkedState 0x1234#16 []) 0x50001235 = some (0x1234#16, 0x2#32, 0#32) := by decide +kernel
theorem test_check_match_from_reset :
    stepOn State.reset 0x50000000 = some (0x0000#16, 0x3#32, 0#32) := by decide +kernel

/-- 95 V-X: the illegal word is recorded and CRC, MATCH and CHECKED stay. -/
theorem test_illegal_word_is_recorded :
    stepOn (checkedState 0x1234#16 []) 0x30000100 = some (0x1234#16, 0x7#32, 0x30000100#32) := by
  decide +kernel
/-- 95 section 2: the first illegal word is kept. -/
theorem test_first_illegal_word_is_kept :
    stepOn { State.reset with err := true, errcmd := 0x60000000#32 } 0x70000000 =
      some (0x0000#16, 0x4#32, 0x60000000#32) := by decide +kernel

/-! ## The functions (95 V-U, V-C) -/

theorem test_update_vectors :
    update 0x00A5#16 0x5A#8 = 0xA55A#16 ∧ update 0x4000#16 0x00#8 = 0x48C4#16 ∧
    update 0x8001#16 0x80#8 = 0x9008#16 ∧ update 0x7FFF#16 0xFF#8 = 0x7087#16 ∧
    update 0xABCD#16 0xEF#8 = 0xC96E#16 := by decide +kernel
theorem test_compute_vectors :
    compute [0xFF#8, 0xFF#8] = 0x1D0F#16 ∧ compute [0x01#8, 0x00#8] = 0x3331#16 ∧
    compute [0x41#8, 0x42#8, 0x43#8] = 0x3994#16 ∧ compute [0x10#8, 0x21#8] = 0x3730#16 := by
  decide +kernel
/-- 95 V-C: `"firmware.bin"`. -/
theorem test_compute_firmware_bin :
    compute [0x66#8, 0x69#8, 0x72#8, 0x6d#8, 0x77#8, 0x61#8, 0x72#8, 0x65#8, 0x2e#8, 0x62#8, 0x69#8, 0x6e#8] =
      0x5F56#16 := by decide +kernel
/-- 90 C3: the direct form with two zeros appended gives the excluded value. -/
theorem test_direct_form_is_not_compute :
    catalogueCrc xmodem [0x31#8, 0x32#8, 0x33#8, 0x34#8, 0x35#8, 0x36#8, 0x37#8, 0x38#8, 0x39#8, 0x00#8, 0x00#8] =
      0xDF8B#16 := by decide +kernel

/-! ## Accesses and reset (95 V-A; 20_memory R31; 60_exceptions R111; 70_reset R120) -/

theorem test_read_crc_register :
    (nextOf (step (checkedState 0xBEEF#16 [.rd .crc]))).map (·.readLog) = some [0x0000BEEF#32] := by
  decide +kernel
theorem test_write_to_crc_register_is_ignored :
    nextOf (step (checkedState 0xBEEF#16 [.wr .crc 0xFFFFFFFF#32])) = some (checkedState 0xBEEF#16 []) := by
  decide +kernel
theorem test_byte_read_is_not_admitted :
    refusalOf (step { State.reset with pending := [.access ⟨.host, 0x4, 1, .read⟩] }) =
      some .accessNotAdmitted := by decide
theorem test_unaligned_word_is_not_admitted :
    refusalOf (step { State.reset with pending := [.access ⟨.host, 0x6, 4, .read⟩] }) =
      some .accessNotAdmitted := by decide
theorem test_straddling_access_is_not_admitted :
    refusalOf (step { State.reset with pending := [.access ⟨.host, -2, 4, .write 0#32⟩] }) =
      some .accessNotAdmitted := by decide
theorem test_second_master_is_refused :
    refusalOf (step { State.reset with pending := [.access ⟨.other 1, 0x0, 4, .write 0#32⟩] }) =
      some .secondMaster := by decide
theorem test_outside_window_faults :
    faultOf (step { State.reset with pending := [.access ⟨.host, 0x10, 4, .read⟩] }) = some .outsideWindow ∧
    faultOf (step { State.reset with pending := [.access ⟨.host, -4, 4, .read⟩] }) = some .outsideWindow := by
  decide
theorem test_no_event_no_step : refusalOf (step State.reset) = some .hostStopped := by decide
theorem test_reset_event_clears_err :
    nextOf (step { checkedState 0x1234#16 [.reset .systemReset] with
      err := true, errcmd := 0x60000000#32, readLog := [7#32] }) =
      some { State.reset with readLog := [7#32] } := by decide
theorem test_issue_appends :
    ((State.reset.issue (.rd .crc)).issue (.reset .powerOn)).pending = [.rd .crc, .reset .powerOn] := by
  decide

/-! ## The assembler's text (30_encoding R54, R55) -/

theorem test_line_load :
    readLine ['L', 'O', 'A', 'D', ' ', '#', '0', 'x', 'B', 'e', 'E', 'F', ' ', ';', 'x'] =
      some (.asm (.command .load (some 0xBEEF))) := by decide
theorem test_line_update_character :
    readLine ['U', 'P', 'D', 'A', 'T', 'E', ' ', '#', Char.ofNat 39, ';', Char.ofNat 39] =
      some (.asm (.command .update (some 0x3B))) := by decide
theorem test_line_refused_operand :
    (readLine ['U', 'P', 'D', 'A', 'T', 'E', ' ', '#', '2', '5', '6']).bind SourceLine.events = none ∧
    (readLine ['I', 'N', 'I', 'T', ' ', '#', '0']).bind SourceLine.events = none := by decide
theorem test_line_word :
    (readLine ['.', 'w', 'o', 'r', 'd', ' ', '0', 'x', '6', '0', '0', '0', '0', '0', '0', '0']).bind
      SourceLine.events = some [.cmdWrite 0x60000000#32] := by decide
theorem test_line_read_register :
    (readLine ['R', 'D', ' ', 'S', 'T', 'A', 'T', 'U', 'S']).bind SourceLine.events =
      some [.access ⟨.host, 0x8, 4, .read⟩] := by decide
theorem test_line_feed_text :
    readLine ['F', 'E', 'E', 'D', ' ', Char.ofNat 34, 'A', 'B', Char.ofNat 34] =
      some (.pseudo [.update 0x41#8, .update 0x42#8]) := by decide
theorem test_line_checkframe :
    readLine ['C', 'H', 'E', 'C', 'K', 'F', 'R', 'A', 'M', 'E', ' ', Char.ofNat 34, 'A', Char.ofNat 34, ',',
      ' ', '0', 'x', '5', '8', ',', '2', '2', '9'] =
      some (.pseudo [.init, .update 0x41#8, .finish, .check 0x58E5#16]) := by decide
theorem test_blank_line : readLine [' ', ';', 'c'] = some .blank := by decide

/-! ## The frame on the wire (20_memory R34, 41_frame_check R81) -/

theorem test_frame_wire_and_length :
    (Frame.mk 0x01#8 0x05#8 0xFA#8 (List.replicate 128 0x00#8) 0x00#8 0x00#8).lengthOk = true ∧
    (Frame.mk 0x02#8 0x05#8 0xFA#8 (List.replicate 128 0x00#8) 0x00#8 0x00#8).lengthOk = false ∧
    (Frame.mk 0x01#8 0x05#8 0xFA#8 [0x41#8] 0x58#8 0xE5#8).wire =
      [0x01#8, 0x05#8, 0xFA#8, 0x41#8, 0x58#8, 0xE5#8] := by decide +kernel

/-! ## Witnesses: states and operands that meet the hypotheses of the statements, clause by clause -/

theorem witness_DecoderFollowsTheFieldsOfTheWord :
    ({ State.reset with pending := [.cmdWrite 0x60000000#32] } : State).pending =
      Event.cmdWrite 0x60000000#32 :: [] := by decide
theorem witness_OperandsAreTheirBitsOfTheWord :
    decode 0x2000FFFF#32 = some (.load 0xFFFF#16) ∧ decode 0x300000FF#32 = some (.update 0xFF#8) ∧
    decode 0x50000000#32 = some (.check 0x0000#16) ∧ decode 0x00000000#32 = some .nop ∧
    decode 0x10000000#32 = some .init ∧ decode 0x40000000#32 = some .finish ∧
    decode 0x500031C3#32 = some (.check (wireCrc 0x31#8 0xC3#8)) := by decide
theorem witness_ReservedOpcodesAreIllegalAndOnlyNopIsANoOp :
    0x6#4 ≤ (0x60000000#32).extractLsb' 28 4 ∧ 0x6#4 ≤ (0xFFFFFFFF#32).extractLsb' 28 4 ∧
    decode 0x60000000#32 = none := by decide
theorem witness_OpcodeTableRowsAreWhatTheDecoderReads :
    opcodeTable.all (fun r => r.covers r.pattern) = true := by decide
theorem witness_UpdateIsTheAugmentedShiftRegisterLoop : (0 : Nat) < 8 ∧ (7 : Nat) < 8 := by decide
theorem witness_ComputeIsLinear :
    ([] : List Byte).length = ([] : List Byte).length ∧ [0x01#8].length = [0x80#8].length := by decide
theorem witness_EverySingleBitFlipIsDetected :
    0 < [0x00#8].length ∧ 7 < 8 ∧ flipBit [0x00#8] 0 7 = [0x80#8] ∧ flipBit [0x00#8] 0 0 = [0x01#8] ∧
    frameCrcOk [0x00#8] 0x00#8 0x00#8 = true := by decide +kernel
theorem witness_NopChangesNothing :
    (0x00000001#32).extractLsb' 28 4 = 0x0#4 ∧ 0x00000001#32 ≠ 0x00000000#32 ∧
    (0x0FFFFFFF#32).extractLsb' 28 4 = 0x0#4 := by decide
theorem witness_InitClearsCrcAndCheckBits :
    (0x10008000#32).extractLsb' 28 4 = 0x1#4 ∧ 0x10008000#32 ≠ 0x10000000#32 := by decide
theorem witness_LoadWritesItsOperandToCrc :
    (0x20010000#32).extractLsb' 28 4 = 0x2#4 ∧ (0x20010000#32).extractLsb' 16 12 ≠ 0#12 := by decide
theorem witness_UpdateFoldsOneByteIntoCrc :
    (0x30000100#32).extractLsb' 28 4 = 0x3#4 ∧ (0x30000100#32).extractLsb' 8 20 ≠ 0#20 ∧
    (0x3FFF0000#32).extractLsb' 8 20 ≠ 0#20 ∧ (checkedState 0x1234#16 []).crc = 0x1234#16 := by decide
theorem witness_FinishFoldsTwoZeroBytesIntoCrc :
    (0x40000001#32).extractLsb' 28 4 = 0x4#4 ∧ 0x40000001#32 ≠ 0x40000000#32 := by decide
theorem witness_CommandExamplesTheRulesDerive :
    (checkedState 0xFFFF#16 []).crc = 0xFFFF#16 ∧
    (0xFFFF#16, 0x1D0F#16) ∈ [(0x0000#16, 0x0000#16), (0x8000#16, 0x1B98#16), (0xFFFF#16, 0x1D0F#16),
      (0xBEEF#16, 0x31C3#16), (0x31C3#16, 0xDF8B#16)] := by decide
theorem witness_CheckComparesCrcWithItsOperand :
    (0x50FF0000#32).extractLsb' 28 4 = 0x5#4 ∧ (0x50FF0000#32).extractLsb' 16 12 ≠ 0#12 ∧
    (checkedState 0x31C3#16 []).crc = wireCrc 0x31#8 0xC3#8 := by decide
theorem witness_MismatchIsNotAnError : (checkedState 0x1234#16 []).crc ≠ 0x1235#16 := by decide
theorem witness_LegalCommandsNeitherWriteNorReadErr :
    (nextOf (step { State.reset with pending := [.cmdWrite 0x60000000#32] })).map (·.err) = some true ∧
    State.reset.err = false ∧ Event.cmdWrite 0x60000000#32 ≠ .reset .powerOn ∧
    Event.cmdWrite 0x60000000#32 ≠ .reset .systemReset := by decide
theorem witness_StepRunsTheDecodedCommand :
    (State.reset.withFetchWord 32 0x2000BEEF).pending = [.cmdWrite 0x2000BEEF#32] ∧
    decode 0x2000BEEF#32 = some (.load 0xBEEF#16) := by decide
theorem witness_IllegalWordTakesTheErrorEntry :
    (State.reset.withFetchWord 32 0x60000000).pending = [.cmdWrite 0x60000000#32] ∧
    decode 0x60000000#32 = none ∧ nextOf (exec .init State.reset) = some State.reset := by decide
theorem witness_ErrStaysUntilReset :
    ({ State.reset with err := true, pending := [.rd .crc] } : State).err = true ∧
    (nextOf (step { State.reset with err := true, pending := [.rd .crc] })).isSome = true ∧
    Event.rd .crc ≠ .reset .powerOn ∧ Event.rd .crc ≠ .reset .systemReset ∧
    ({ State.reset with pending := [.reset .powerOn] } : State).pending = [.reset .powerOn] := by decide
theorem witness_CmdRegisterIssuesAndReadsZero :
    (checkedState 0#16 [.access ⟨.host, 0x0, 4, .write 0x10000000#32⟩]).pending =
      [.access ⟨.host, 0x0, 4, .write 0x10000000#32⟩] ∧
    (checkedState 0#16 [.access ⟨.host, 0x0, 4, .read⟩]).pending = [.access ⟨.host, 0x0, 4, .read⟩] ∧
    (nextOf (issueCommand 0x60000000#32 State.reset)).map (·.errcmd) = some 0x60000000#32 ∧
    State.reset.errcmd ≠ 0x60000000#32 := by decide
theorem witness_CrcRegisterReadsTheRollingCrc :
    (checkedState 0#16 [.access ⟨.host, 0x4, 4, .read⟩]).pending = [.access ⟨.host, 0x4, 4, .read⟩] ∧
    (checkedState 0#16 [.access ⟨.host, 0x4, 4, .write 1#32⟩]).pending =
      [.access ⟨.host, 0x4, 4, .write 1#32⟩] := by decide
theorem witness_StatusRegisterReadsItsFields :
    (checkedState 0#16 [.access ⟨.host, 0x8, 4, .read⟩]).pending = [.access ⟨.host, 0x8, 4, .read⟩] ∧
    (checkedState 0#16 [.access ⟨.host, 0x8, 4, .write 1#32⟩]).pending =
      [.access ⟨.host, 0x8, 4, .write 1#32⟩] ∧ (3 : Nat) ≤ 31 := by decide
theorem witness_StatusReadsOnlyItsLegalValues : (checkedState 0#16 []).consistent = true := by decide
theorem witness_ErrcmdRegisterReadsErrcmd :
    (checkedState 0#16 [.access ⟨.host, 0xC, 4, .read⟩]).pending = [.access ⟨.host, 0xC, 4, .read⟩] ∧
    (checkedState 0#16 [.access ⟨.host, 0xC, 4, .write 1#32⟩]).pending =
      [.access ⟨.host, 0xC, 4, .write 1#32⟩] := by decide
theorem witness_WritesToReadOnlyRegistersAreIgnored :
    WindowReg.errcmd ≠ .cmd ∧
    (checkedState 0#16 [.wr .errcmd 5#32]).pending = [.wr .errcmd 5#32] ∧
    (checkedState 0#16 [.rd .cmd]).pending = [.rd .cmd] := by decide
theorem witness_ReadsHaveNoSideEffectAndAreIdempotent :
    (checkedState 0#16 [.wr .cmd 0#32]).pending = [.wr .cmd 0#32] ∧
    (checkedState 0#16 [.rd .status]).pending = [.rd .status] ∧
    [Event.rd .crc, Event.wr .status 7#32].all (fun e => e.isAdmitted && e.cmdWord?.isNone) = true := by
  decide
theorem witness_EveryAdmittedAccessCompletes :
    (checkedState 0#16 [.access ⟨.host, 0xC, 4, .read⟩]).pending = [.access ⟨.host, 0xC, 4, .read⟩] ∧
    State.reset.pending = [] := by decide
theorem witness_AccessNotAdmittedHasNoStep :
    (checkedState 0#16 [.access ⟨.host, 0xF, 1, .read⟩]).pending = [.access ⟨.host, 0xF, 1, .read⟩] ∧
    (0xF : Int) < 16 ∧ (0 : Int) < 0xF + (1 : Nat) ∧ (1 : Nat) ≠ 4 ∧ (-3 : Int) < 16 ∧
    (0 : Int) < -3 + (4 : Nat) ∧ (-3 : Int) % 4 ≠ 0 := by decide
theorem witness_WindowStandsAtCrcBase :
    ({ State.reset with
      pending := [.access (Access.ofBus .host (Config.crcBase + 16) 4 .read)] } : State).pending =
      [.access (Access.ofBus .host (Config.crcBase + 16) 4 .read)] ∧
    (Config.crcBase + 0 ≤ Config.crcBase ∨ Config.crcBase + 16 ≤ Config.crcBase + 16) ∧ 0 < 16 ∧ 15 < 16 :=
  ⟨rfl, .inr (Nat.le_refl _), by decide, by decide⟩
theorem witness_OnlyCommandWritesAndResetsChangeTheChecker :
    (nextOf (step (checkedState 0#16 [.wr .crc 5#32]))).isSome = true ∧
    Event.wr .crc 5#32 ≠ .reset .powerOn ∧ Event.wr .crc 5#32 ≠ .reset .systemReset ∧
    WindowReg.crc.offset ≠ 0x0 ∧
    (checkedState 0#16 [.access ⟨.other 1, 0xF, 1, .read⟩]).pending = [.access ⟨.other 1, 0xF, 1, .read⟩] ∧
    (0xF : Int) < 16 ∧ (0 : Int) < 0xF + (1 : Nat) := by decide
theorem witness_CrcIsWrittenByFourCommandsOnly :
    (nextOf (step (checkedState 0x1234#16 [.cmdWrite 0x10000000#32]))).map (·.crc) = some 0x0000#16 ∧
    (nextOf (step (checkedState 0x1234#16 [.reset .powerOn]))).map (·.crc) = some 0x0000#16 := by decide
theorem witness_ResetZeroesTheChecker :
    (checkedState 0x1234#16 [.reset .powerOn]).pending = [.reset .powerOn] := by decide
theorem witness_EveryStepKeepsTheRegistersConsistent :
    (checkedState 0x1234#16 [.cmdWrite 0x60000000#32]).consistent = true ∧
    (nextOf (step (checkedState 0x1234#16 [.cmdWrite 0x60000000#32]))).isSome = true := by decide
theorem witness_CheckBitsTellOfTheLastCheck :
    State.reset.checked = false ∧ State.reset.matched = false ∧
    (Event.cmdWrite 0x50000000#32).isAdmitted = true ∧
    lastCheck [.cmdWrite 0x50000000#32, .rd .status] = some 0x0000#16 ∧
    lastCheck [.cmdWrite 0x50000000#32, .reset .powerOn] = none ∧
    lastCheck [.cmdWrite 0x50000000#32, .cmdWrite 0x20000000#32] = none := by decide
theorem witness_ErrcmdIsTheFirstIllegalWordSinceReset :
    State.reset.err = false ∧ State.reset.errcmd = 0x00000000#32 ∧
    illegalSinceReset [.cmdWrite 0x60000000#32, .cmdWrite 0x70000000#32] = [0x60000000#32, 0x70000000#32] ∧
    illegalSinceReset [.cmdWrite 0x60000000#32, .reset .systemReset] = [] := by decide
theorem witness_CanonicalFrameCheckReportsFrameCrcOk :
    State.reset.crc = 0x0000#16 ∧
    [Event.cmdWrite 0x10000000#32, .rd .crc, .cmdWrite 0x30000041#32, .cmdWrite 0x30000141#32,
      .cmdWrite 0#32, .cmdWrite 0x40000000#32, .cmdWrite 0x500058E5#32].all Event.isAdmitted = true ∧
    commandsOf [Event.cmdWrite 0x10000000#32, .rd .crc, .cmdWrite 0x30000041#32, .cmdWrite 0x30000141#32,
      .cmdWrite 0#32, .cmdWrite 0x40000000#32, .cmdWrite 0x500058E5#32] =
      frameCheckFrom .init [0x41#8] 0x58#8 0xE5#8 ∧
    commandsOf [Event.cmdWrite 0x20000000#32, .cmdWrite 0x40000000#32, .cmdWrite 0x50000000#32] =
      frameCheckFrom .loadZero [] 0x00#8 0x00#8 ∧
    commandsOf [Event.cmdWrite 0x40000000#32, .cmdWrite 0x50000000#32] =
      frameCheckFrom .afterReset [] 0x00#8 0x00#8 := by decide +kernel
theorem witness_ValidatedFramesAreRightAndUndisturbed :
    frameValidated State.reset { State.reset with matched := true, checked := true } = true ∧
    State.reset.crc = 0x0000#16 ∧
    [Event.cmdWrite 0x40000000#32, .cmdWrite 0x50000000#32].all Event.isAdmitted = true ∧
    commandsOf [Event.cmdWrite 0x40000000#32, .cmdWrite 0x50000000#32] =
      frameCheckFrom .afterReset [] 0x00#8 0x00#8 ∧
    illegalWordsOf [Event.cmdWrite 0x40000000#32, .cmdWrite 0x50000000#32] = [] ∧
    frameCrcOk [] 0x00#8 0x00#8 = true := by decide +kernel
theorem witness_SenderFramePassesAndFlippedFrameFails :
    0 < [0x41#8].length ∧ senderHi [0x41#8] = 0x58#8 ∧ senderLo [0x41#8] = 0xE5#8 := by decide +kernel
theorem witness_AssemblerWritesTheCommandWords :
    assemble (.command .load (some 0xFFFF)) = some 0x2000FFFF#32 ∧
    assemble (.command .load (some 0x10000)) = none ∧
    assemble (.command .update (some 0xFF)) = some 0x300000FF#32 ∧
    assemble (.command .update (some 0x100)) = none ∧ (0xFFFFFFFF : Nat) ≤ 0xFFFFFFFF := by decide

end Sys2Proof.Tests
end

/-! PROOFS. The family 10_state: what the four registers read and ignore (10_state R19 to R22), who
writes CRC (R11), and the histories that MATCH, CHECKED, ERR and ERRCMD tell of (R12, R13, R15, R16). -/

namespace Sys2Proof.Machine

/-! ### What the registers read -/

/-- A flag stands in bit 0 of its word. -/
theorem flagWord_getLsbD (b : Bool) (i : Nat) :
    (flagWord b).getLsbD i = (decide (i = 0) && b) := by
  cases i <;> simp [flagWord]

/-- STATUS bit by bit (10_state R21). -/
theorem statusWord_getLsbD (s : State) (i : Nat) :
    (statusWord s).getLsbD i =
      (decide (i = 2) && s.err || decide (i = 1) && s.checked || decide (i = 0) && s.matched) := by
  have h2 : (decide (i < 32) && (!decide (i < 2) && decide (i - 2 = 0))) = decide (i = 2) := by
    rw [Bool.eq_iff_iff]; simp; omega
  have h1 : (decide (i < 32) && (!decide (i < 1) && decide (i - 1 = 0))) = decide (i = 1) := by
    rw [Bool.eq_iff_iff]; simp; omega
  simp only [statusWord, BitVec.getLsbD_or, BitVec.getLsbD_shiftLeft, flagWord_getLsbD,
    ← Bool.and_assoc, ← h1, ← h2]

theorem statusWord_bit_matched (s : State) : (statusWord s).getLsbD 0 = s.matched := by
  rw [statusWord_getLsbD]; simp

theorem statusWord_bit_checked (s : State) : (statusWord s).getLsbD 1 = s.checked := by
  rw [statusWord_getLsbD]; simp

theorem statusWord_bit_err (s : State) : (statusWord s).getLsbD 2 = s.err := by
  rw [statusWord_getLsbD]; simp

theorem statusWord_bit_reserved (s : State) {i : Nat} (h : 3 ≤ i) :
    (statusWord s).getLsbD i = false := by
  simp [statusWord_getLsbD, show i ≠ 0 by omega, show i ≠ 1 by omega, show i ≠ 2 by omega]

/-- The low half of the CRC register (10_state R20). -/
theorem readValue_crc_low (s : State) : (readValue .crc s).extractLsb' 0 16 = s.crc := by
  simp [readValue, BitVec.extractLsb'_setWidth_of_le]

/-- The reserved high half of the CRC register (10_state R20). -/
theorem readValue_crc_high (s : State) : (readValue .crc s).extractLsb' 16 16 = 0#16 := by
  apply BitVec.eq_of_getLsbD_eq
  intro i hi
  simp [readValue, BitVec.getLsbD_extractLsb']

/-- A step that reads a register hands its value to the host and changes nothing else. -/
theorem step_rd {s : State} {r : WindowReg} {rest : List Event} (h : s.pending = .rd r :: rest) :
    step s = .next { s with pending := rest, readLog := readValue r s :: s.readLog } := by
  have hv : readValue r { s with pending := rest } = readValue r s :=
    readValue_congr r rfl rfl rfl rfl rfl
  rw [step_cons h, performEvent_rd, regRead, hv]

/-- A step that writes a register is the register's write. -/
theorem step_wr {s : State} {r : WindowReg} {v : Word} {rest : List Event}
    (h : s.pending = .wr r v :: rest) : step s = regWrite r v { s with pending := rest } := by
  rw [step_cons h, performEvent_wr]

/-! ### What a command can do -/

/-- The commands that write CRC (10_state R11). -/
def WritesCrc (i : Instr) : Prop :=
  i = .init ∨ (∃ v, i = .load v) ∨ (∃ b, i = .update b) ∨ i = .finish

/-- A command is NOP, writes CRC, or is CHECK; `exec_cases` with the four writers as one. -/
theorem exec_next {i : Instr} {s t : State} (h : exec i s = .next t) :
    (i = .nop ∧ t = s) ∨ (WritesCrc i ∧ ∃ v, t = writeCrc v s) ∨
      ∃ u, i = .check u ∧ t = recordCheck (s.crc == u) s := by
  rcases exec_cases i s with ⟨hi, he⟩ | ⟨hi, he⟩ | ⟨v, hi, he⟩ | ⟨b, hi, he⟩ | ⟨hi, he⟩ |
    ⟨u, hi, he⟩ <;> cases he.symm.trans h
  · exact .inl ⟨hi, rfl⟩
  · exact .inr (.inl ⟨.inl hi, _, rfl⟩)
  · exact .inr (.inl ⟨.inr (.inl ⟨v, hi⟩), _, rfl⟩)
  · exact .inr (.inl ⟨.inr (.inr (.inl ⟨b, hi⟩)), _, rfl⟩)
  · exact .inr (.inl ⟨.inr (.inr (.inr hi)), _, rfl⟩)
  · exact .inr (.inr ⟨u, hi, rfl⟩)

/-- No command touches ERR or ERRCMD. -/
theorem exec_keeps_err {i : Instr} {s t : State} (h : exec i s = .next t) :
    t.err = s.err ∧ t.errcmd = s.errcmd := by
  obtain ⟨-, rfl⟩ | ⟨-, v, rfl⟩ | ⟨u, -, rfl⟩ := exec_next h
  · exact ⟨rfl, rfl⟩
  · exact ⟨writeCrc_err s v, writeCrc_errcmd s v⟩
  · exact ⟨recordCheck_err s _, recordCheck_errcmd s _⟩

theorem issueCommand_of_legal {w : Word} {i : Instr} (h : decode w = some i) (s : State) :
    issueCommand w s = exec i s := by
  simp only [issueCommand, h]

theorem issueCommand_of_illegal {w : Word} (h : decode w = none) (s : State) :
    issueCommand w s = .next (raiseIllegalCommand w s) := by
  simp only [issueCommand, h]

/-! ### The four registers -/

/-- Settles O32, register by register access; ERRCMD is kept by every command (`exec_keeps_err`). -/
theorem cmdRegisterIssuesAndReadsZero : Obligations.CmdRegisterIssuesAndReadsZero := by
  refine ⟨fun s w rest h => step_wr (r := .cmd) h, fun s rest h => step_rd (r := .cmd) h, ?_⟩
  intro s t w h hne
  cases hd : decode w with
  | some i =>
    rw [issueCommand_of_legal hd] at h
    exact absurd (exec_keeps_err h).2 hne
  | none =>
    rw [issueCommand_of_illegal hd] at h
    cases h
    cases he : s.err <;> simp_all

/-- Settles O33: the value read is the CRC register's, by halves. -/
theorem crcRegisterReadsTheRollingCrc : Obligations.CrcRegisterReadsTheRollingCrc :=
  ⟨fun s _ h => ⟨readValue .crc s, step_rd (r := .crc) h, readValue_crc_low s, readValue_crc_high s⟩,
    fun _ _ _ h => step_wr (r := .crc) h⟩

/-- Settles O34: the value read is STATUS, bit by bit. -/
theorem statusRegisterReadsItsFields : Obligations.StatusRegisterReadsItsFields :=
  ⟨fun s _ h => ⟨statusWord s, step_rd (r := .status) h, statusWord_bit_matched s,
      statusWord_bit_checked s, statusWord_bit_err s, fun _ hi => statusWord_bit_reserved s hi⟩,
    fun _ _ _ h => step_wr (r := .status) h⟩

/-- Settles O36 by the rules for a register read and a register write. -/
theorem errcmdRegisterReadsErrcmd : Obligations.ErrcmdRegisterReadsErrcmd :=
  ⟨fun _ _ h => step_rd (r := .errcmd) h, fun _ _ _ h => step_wr (r := .errcmd) h⟩

/-! ### Who writes CRC -/

/-- A command that changes CRC is one of the four writers. -/
theorem exec_changes_crc {i : Instr} {s t : State} (h : exec i s = .next t) (hne : t.crc ≠ s.crc) :
    WritesCrc i := by
  obtain ⟨-, rfl⟩ | ⟨hw, -⟩ | ⟨u, -, rfl⟩ := exec_next h
  · exact absurd rfl hne
  · exact hw
  · exact absurd (recordCheck_crc s _) hne

/-- An event that changes CRC is a reset or issues one of the four writers. -/
theorem performEvent_changes_crc {e : Event} {s t : State} (h : performEvent e s = .next t)
    (hne : t.crc ≠ s.crc) :
    (∃ c, e = .reset c) ∨ ∃ w i, e = .cmdWrite w ∧ decode w = some i ∧ WritesCrc i := by
  obtain ⟨r, -, rfl⟩ | ⟨r, v, -, -, rfl⟩ | ⟨w, i, he, hd, hx⟩ | ⟨w, -, -, rfl⟩ | ⟨c, he, -⟩ :=
    performEvent_next h
  · exact absurd (regRead_crc s r) hne
  · exact absurd rfl hne
  · exact .inr ⟨w, i, he, hd, exec_changes_crc hx hne⟩
  · exact absurd (raiseIllegalCommand_crc s w) hne
  · exact .inl ⟨c, he⟩

/-- Settles O44: the step is its event (`step_next`), and `performEvent_changes_crc` says which. -/
theorem crcIsWrittenByFourCommandsOnly : Obligations.CrcIsWrittenByFourCommandsOnly := by
  refine ⟨?_, fun v s => ⟨writeCrc v s, rfl, writeCrc_crc s v⟩,
    fun s => ⟨readValue_crc_low s, readValue_crc_high s⟩, rfl, rfl⟩
  intro s t e rest hp hs hne
  rw [step_cons hp] at hs
  exact performEvent_changes_crc hs hne

/-! ### A history over every sequence of admitted accesses and resets -/

/-- Every command word completes in every state, legal or not (60_exceptions R100). -/
theorem issueCommand_completes (w : Word) (s : State) : ∃ t, issueCommand w s = .next t := by
  cases hd : decode w with
  | some i => rw [issueCommand_of_legal hd]; cases i <;> exact ⟨_, rfl⟩
  | none => exact ⟨_, issueCommand_of_illegal hd s⟩

/-- An admitted access or a reset completes in every state (20_memory R38, 70_reset R120). -/
theorem performEvent_completes {e : Event} (h : e.isAdmitted = true ∨ ∃ c, e = .reset c)
    (s : State) : ∃ t, performEvent e s = .next t := by
  rcases h with ha | ⟨c, rfl⟩
  · obtain ⟨r, rfl⟩ | ⟨r, v, rfl⟩ := isAdmitted_cases ha
    · exact ⟨_, performEvent_rd r s⟩
    · rw [performEvent_wr]
      cases r with
      | cmd => exact issueCommand_completes v s
      | crc | status | errcmd => exact ⟨s, rfl⟩
  · exact ⟨_, performEvent_reset c s⟩

/-- A relation between a history, kept by `next` event by event, and the state: if every event that
completes keeps it, every sequence of admitted accesses and resets completes and keeps it. -/
theorem runAll_keeps {α : Type} (next : α → Event → α) (R : α → State → Prop)
    (hstep : ∀ {a e s t}, R a s → performEvent e s = .next t → R (next a e) t)
    (es : List Event) (a : α) (s : State) (hR : R a s)
    (hes : ∀ e ∈ es, e.isAdmitted = true ∨ ∃ c, e = .reset c) :
    ∃ t, runAll es s = .next t ∧ R (es.foldl next a) t := by
  induction es generalizing a s with
  | nil => exact ⟨s, runAll_nil s, hR⟩
  | cons e es ih =>
    obtain ⟨he, hes⟩ := List.forall_mem_cons.1 hes
    obtain ⟨u, hu⟩ := performEvent_completes he s
    rw [runAll_cons hu]
    exact ih (next a e) u (hstep hR hu) hes

/-! ### CHECKED and MATCH -/

/-- A legal word counts as its command (NOP, which `commandOfWord` leaves out, changes nothing). -/
theorem lastCheckAfter_commandOfWord {w : Word} {i : Instr} (h : decode w = some i)
    (l : Option Crc16) : lastCheckAfter l (commandOfWord w) = lastCheckAfter l (some i) := by
  simp only [commandOfWord, h, Option.filter]
  cases i <;> rfl

theorem lastCheckAfter_of_illegal {w : Word} (h : decode w = none) (l : Option Crc16) :
    lastCheckAfter l (commandOfWord w) = l := by
  simp only [commandOfWord, h]; rfl

/-- A command that writes CRC makes every earlier CHECK void (10_state R13). -/
theorem lastCheckAfter_of_writesCrc {i : Instr} (h : WritesCrc i) (l : Option Crc16) :
    lastCheckAfter l (some i) = none := by
  obtain rfl | ⟨v, rfl⟩ | ⟨b, rfl⟩ | rfl := h <;> rfl

/-- The two check bits tell of `l`, the operand of the last CHECK, if there was one. -/
def CheckBitsTell (l : Option Crc16) (s : State) : Prop :=
  s.checked = l.isSome ∧ s.matched = decide (l = some s.crc)

/-- Told of no CHECK, both bits are 0. -/
theorem checkBitsTell_none {s : State} :
    CheckBitsTell none s ↔ s.checked = false ∧ s.matched = false := by
  simp [CheckBitsTell]

/-- CHECK records its own outcome. -/
theorem checkBitsTell_recordCheck (u : Crc16) (s : State) :
    CheckBitsTell (some u) (recordCheck (s.crc == u) s) := by
  refine ⟨rfl, ?_⟩
  rw [recordCheck_matched, recordCheck_crc, Bool.eq_iff_iff, beq_iff_eq, decide_eq_true_iff,
    Option.some_inj]
  exact eq_comm

theorem exec_keeps_checkBitsTell {l : Option Crc16} {i : Instr} {s t : State}
    (hs : CheckBitsTell l s) (h : exec i s = .next t) :
    CheckBitsTell (lastCheckAfter l (some i)) t := by
  obtain ⟨rfl, rfl⟩ | ⟨hw, v, rfl⟩ | ⟨u, rfl, rfl⟩ := exec_next h
  · exact hs
  · rw [lastCheckAfter_of_writesCrc hw]
    exact checkBitsTell_none.2 ⟨writeCrc_checked s v, writeCrc_matched s v⟩
  · exact checkBitsTell_recordCheck u s

theorem performEvent_keeps_checkBitsTell {l : Option Crc16} {e : Event} {s t : State}
    (hs : CheckBitsTell l s) (h : performEvent e s = .next t) :
    CheckBitsTell (lastCheckNext l e) t := by
  obtain ⟨r, rfl, rfl⟩ | ⟨r, v, rfl, hr, rfl⟩ | ⟨w, i, rfl, hd, hx⟩ | ⟨w, rfl, hd, rfl⟩ |
    ⟨c, rfl, rfl⟩ := performEvent_next h
  · rw [lastCheckNext_rd]; exact hs
  · rw [lastCheckNext_wr hr]; exact hs
  · rw [lastCheckNext_cmdWrite, lastCheckAfter_commandOfWord hd]
    exact exec_keeps_checkBitsTell hs hx
  · rw [lastCheckNext_cmdWrite, lastCheckAfter_of_illegal hd]; exact hs
  · exact checkBitsTell_none.2 ⟨applyReset_checked s c, applyReset_matched s c⟩

/-- Settles O49, by induction over the events with the invariant `CheckBitsTell`. -/
theorem checkBitsTellOfTheLastCheck : Obligations.CheckBitsTellOfTheLastCheck := by
  refine ⟨rfl, rfl, fun es s hk hm hes => ?_⟩
  obtain ⟨t, hrun, hchecked, hmatched⟩ :=
    runAll_keeps lastCheckNext CheckBitsTell performEvent_keeps_checkBitsTell es none s
      (checkBitsTell_none.2 ⟨hk, hm⟩) hes
  exact ⟨t, hrun, hchecked, hmatched, statusWord_bit_matched t, statusWord_bit_checked t⟩

/-! ### ERR and ERRCMD -/

/-- ERR and ERRCMD tell of `ws`, the illegal words so far: whether there is one, and the first. -/
def ErrTells (ws : List Word) (s : State) : Prop :=
  s.err = !ws.isEmpty ∧ s.errcmd = ws.headD 0x00000000#32

/-- The error entry keeps the first illegal word (60_exceptions R102). -/
theorem errTells_raiseIllegalCommand {ws : List Word} {s : State} (hs : ErrTells ws s) (w : Word) :
    ErrTells (ws ++ [w]) (raiseIllegalCommand w s) := by
  obtain ⟨he, hc⟩ := hs
  cases ws with
  | nil => exact ⟨rfl, by simp [he]⟩
  | cons w₀ ws => exact ⟨rfl, by simp [he, hc]⟩

theorem performEvent_keeps_errTells {ws : List Word} {e : Event} {s t : State}
    (hs : ErrTells ws s) (h : performEvent e s = .next t) : ErrTells (illegalNext ws e) t := by
  obtain ⟨r, rfl, rfl⟩ | ⟨r, v, rfl, hr, rfl⟩ | ⟨w, i, rfl, hd, hx⟩ | ⟨w, rfl, hd, rfl⟩ |
    ⟨c, rfl, rfl⟩ := performEvent_next h
  · rw [illegalNext_rd]; exact hs
  · rw [illegalNext_wr hr]; exact hs
  · have hlegal : illegalNext ws (.cmdWrite w) = ws := by simp [hd]
    obtain ⟨he, hc⟩ := exec_keeps_err hx
    rw [hlegal, ErrTells, he, hc]; exact hs
  · have hillegal : illegalNext ws (.cmdWrite w) = ws ++ [w] := by simp [hd]
    rw [hillegal]; exact errTells_raiseIllegalCommand hs w
  · exact ⟨applyReset_err s c, applyReset_errcmd s c⟩

/-- Settles O50, by induction over the events with the invariant `ErrTells`. -/
theorem errcmdIsTheFirstIllegalWordSinceReset :
    Obligations.ErrcmdIsTheFirstIllegalWordSinceReset := by
  refine ⟨rfl, rfl, fun es s he hc hes => ?_⟩
  obtain ⟨t, hrun, herr, hcmd⟩ :=
    runAll_keeps illegalNext ErrTells performEvent_keeps_errTells es [] s ⟨he, hc⟩ hes
  exact ⟨t, hrun, herr, hcmd, statusWord_bit_err t, rfl⟩

end Sys2Proof.Machine

/-! PROOFS. The family 20_memory: what register reads and writes leave unchanged (20_memory R32, R33). -/

namespace Sys2Proof.Machine

/-! ### Accesses that issue no command -/

/-- A write of a read-only register is ignored (20_memory R33). -/
theorem regWrite_of_ne_cmd {r : WindowReg} (h : r ≠ .cmd) (v : Word) (s : State) :
    regWrite r v s = .next s := by
  cases r with
  | cmd => exact absurd rfl h
  | crc | status | errcmd => rfl

/-- No register reads what the host has read before. -/
@[simp] theorem readValue_with_readLog (r : WindowReg) (s : State) (log : List Word) :
    readValue r { s with readLog := log } = readValue r s :=
  readValue_congr r rfl rfl rfl rfl rfl

/-- An admitted access that writes no command only adds to what the host has read. -/
theorem performEvent_of_no_command {e : Event} (ha : e.isAdmitted = true) (hc : e.cmdWord? = none)
    (s : State) : ∃ mid, performEvent e s = .next { s with readLog := mid ++ s.readLog } := by
  obtain ⟨r, rfl⟩ | ⟨r, v, rfl⟩ := isAdmitted_cases ha
  · exact ⟨[readValue r s], performEvent_rd r s⟩
  · have hr : r ≠ .cmd := by
      rintro rfl
      cases (cmdWord?_cmdWrite v).symm.trans hc
    exact ⟨[], by rw [performEvent_wr]; exact regWrite_of_ne_cmd hr v s⟩

/-- After admitted accesses that write no command, the events that follow start from the same state
but for what the host has read. -/
theorem runAll_append_of_no_command {es : List Event}
    (hes : ∀ e ∈ es, e.isAdmitted = true ∧ e.cmdWord? = none) (es' : List Event) (s : State) :
    ∃ mid, runAll (es ++ es') s = runAll es' { s with readLog := mid ++ s.readLog } := by
  induction es generalizing s with
  | nil => exact ⟨[], rfl⟩
  | cons e es ih =>
    obtain ⟨⟨ha, hc⟩, hes⟩ := List.forall_mem_cons.1 hes
    obtain ⟨new, hnew⟩ := performEvent_of_no_command ha hc s
    obtain ⟨mid, hmid⟩ := ih hes { s with readLog := new ++ s.readLog }
    refine ⟨mid ++ new, ?_⟩
    rw [List.cons_append, runAll_cons hnew, hmid, List.append_assoc]

/-- A read of a register comes first, then the rest runs from the state it leaves. -/
theorem runAll_rd_cons (r : WindowReg) (es : List Event) (s : State) :
    runAll (.rd r :: es) s = runAll es (regRead r s) :=
  runAll_cons (performEvent_rd r s)

/-! ### The statements -/

/-- Settles O38: the accesses between the two reads change only what the host has read
(`runAll_append_of_no_command`), which no register reads (`readValue_with_readLog`). -/
theorem readsHaveNoSideEffectAndAreIdempotent :
    Obligations.ReadsHaveNoSideEffectAndAreIdempotent := by
  refine ⟨fun s w rest h => step_wr (r := .cmd) h, fun s r rest h => ⟨_, step_rd h⟩, ?_⟩
  intro s r es hes
  obtain ⟨mid, hmid⟩ := runAll_append_of_no_command hes [.rd r] (regRead r s)
  refine ⟨readValue r s, regRead r s,
    regRead r { s with readLog := mid ++ readValue r s :: s.readLog }, mid,
    runAll_rd_cons r [] s, regRead_readLog s r, ?_, ?_⟩
  · rw [List.cons_append, runAll_rd_cons, hmid]
    exact runAll_rd_cons r [] _
  · rw [regRead_readLog, readValue_with_readLog, List.cons_append]

/-- Settles O37 by the rules for a register write and a register read. -/
theorem writesToReadOnlyRegistersAreIgnored : Obligations.WritesToReadOnlyRegistersAreIgnored := by
  refine ⟨fun s r v rest hr h => ?_, fun s rest h => step_rd (r := .cmd) h⟩
  rw [step_wr h, regWrite_of_ne_cmd hr]

end Sys2Proof.Machine

/-! PROOFS. The family 30_encoding: the decoder opcode by opcode (30_encoding R49 to R51), its inverse
on legal words (R48), and which words do nothing when issued (R50). -/

namespace Sys2Proof

/-! ### The halves of a half word -/

/-- A byte widened to 16 bits has a zero byte above it. -/
theorem setWidth_eq_zero_append (b : Byte) : b.setWidth 16 = 0x00#8 ++ b := by
  rw [BitVec.setWidth_eq_append (by decide), BitVec.cast_eq]

/-- IMM16 with `IMM16[15:8]` zero is the byte below it, widened (30_encoding R48). -/
theorem setWidth_low_byte {imm : Crc16} (h : imm.extractLsb' 8 8 = 0x00#8) :
    (imm.extractLsb' 0 8).setWidth 16 = imm := by
  rw [setWidth_eq_zero_append, ← h]
  exact BitVec.extractLsb'_append_extractLsb' (w := 8) (len := 8)

/-- The transmitted CRC is the high byte above the low byte (20_memory R34). -/
theorem wireCrc_eq_append (hi lo : Byte) : Machine.wireCrc hi lo = hi ++ lo := by
  rw [Machine.wireCrc, BitVec.append_def, BitVec.shiftLeftZeroExtend_eq, BitVec.setWidth'_eq]

/-! ### The decoder, opcode by opcode -/

/-- An opcode is one of the six of 30_encoding R47 or reserved (R50). -/
theorem op_cases (op : BitVec 4) :
    (op = 0x0#4 ∨ op = 0x1#4 ∨ op = 0x2#4 ∨ op = 0x3#4 ∨ op = 0x4#4 ∨ op = 0x5#4) ∨
      6 ≤ op.toNat := by
  revert op; decide

theorem ne_of_reserved {op k : BitVec 4} (h : 6 ≤ op.toNat) (hk : k.toNat < 6) : op ≠ k := by
  rintro rfl
  omega

theorem decodeFields_of_rsv {c : CommandWord} (h : c.rsv ≠ 0#12) : decodeFields c = none :=
  if_pos h

theorem decodeFields_of_reserved {c : CommandWord} (h : 6 ≤ c.op.toNat) :
    decodeFields c = none := by
  unfold decodeFields
  split
  · rfl
  · split
    case h_7 => rfl
    all_goals omega

@[simp] theorem decodeFields_op_nop (imm : Crc16) :
    decodeFields ⟨0x0#4, 0#12, imm⟩ = if imm = 0#16 then some .nop else none := rfl

@[simp] theorem decodeFields_op_init (imm : Crc16) :
    decodeFields ⟨0x1#4, 0#12, imm⟩ = if imm = 0#16 then some .init else none := rfl

@[simp] theorem decodeFields_op_load (imm : Crc16) :
    decodeFields ⟨0x2#4, 0#12, imm⟩ = some (.load imm) := rfl

@[simp] theorem decodeFields_op_update (imm : Crc16) :
    decodeFields ⟨0x3#4, 0#12, imm⟩ =
      if imm.extractLsb' 8 8 = 0#8 then some (.update (imm.extractLsb' 0 8)) else none := rfl

@[simp] theorem decodeFields_op_finish (imm : Crc16) :
    decodeFields ⟨0x4#4, 0#12, imm⟩ = if imm = 0#16 then some .finish else none := rfl

@[simp] theorem decodeFields_op_check (imm : Crc16) :
    decodeFields ⟨0x5#4, 0#12, imm⟩ = some (.check imm) := rfl

/-! ### Decoding is the inverse of the fields of a command -/

theorem decodeFields_fields (i : Instr) : decodeFields i.fields = some i := by
  cases i with
  | nop | init | load | finish | check => rfl
  | update b =>
    rw [Instr.fields, decodeFields_op_update, setWidth_eq_zero_append,
      BitVec.extractLsb'_append_eq_left, BitVec.extractLsb'_append_eq_right, if_pos rfl]

theorem fields_of_decodeFields {c : CommandWord} {i : Instr} (h : decodeFields c = some i) :
    c = i.fields := by
  obtain ⟨op, rsv, imm⟩ := c
  by_cases hrsv : rsv = 0#12
  · subst hrsv
    obtain (rfl | rfl | rfl | rfl | rfl | rfl) | hop := op_cases op
    · obtain ⟨rfl, ⟨⟩⟩ := Option.ite_none_right_eq_some.1 h; rfl
    · obtain ⟨rfl, ⟨⟩⟩ := Option.ite_none_right_eq_some.1 h; rfl
    · cases h; rfl
    · obtain ⟨himm, ⟨⟩⟩ := Option.ite_none_right_eq_some.1 h
      rw [Instr.fields, setWidth_low_byte himm]
    · obtain ⟨rfl, ⟨⟩⟩ := Option.ite_none_right_eq_some.1 h; rfl
    · cases h; rfl
    · cases (decodeFields_of_reserved hop).symm.trans h
  · cases (decodeFields_of_rsv hrsv).symm.trans h

/-- A word decodes to a command exactly when its fields are the command's (30_encoding R47, R48). -/
theorem decode_eq_some_iff {w : Word} {i : Instr} :
    decode w = some i ↔ CommandWord.ofWord w = i.fields :=
  ⟨fields_of_decodeFields, fun h => by rw [decode, h, decodeFields_fields]⟩

/-- Every command is the meaning of its own word. -/
@[simp] theorem decode_encode (i : Instr) : decode (encode i) = some i :=
  decode_eq_some_iff.2 (ofWord_toWord _)

/-- A legal word is the word of its command. -/
theorem encode_of_decode {w : Word} {i : Instr} (h : decode w = some i) : encode i = w := by
  rw [encode, ← decode_eq_some_iff.1 h, toWord_ofWord]

/-- IMM16 of a legal word is its command's. -/
theorem imm_of_decode {w : Word} {i : Instr} (h : decode w = some i) :
    w.extractLsb' 0 16 = i.fields.imm :=
  congrArg CommandWord.imm (decode_eq_some_iff.1 h)

theorem high_byte_of_imm {w : Word} {hi lo : Byte} (h : w.extractLsb' 0 16 = hi ++ lo) :
    w.extractLsb' 8 8 = hi := by
  rw [← BitVec.extractLsb'_extractLsb'_of_le (show 8 + 8 ≤ 16 by decide), h,
    BitVec.extractLsb'_append_eq_left]

theorem low_byte_of_imm {w : Word} {hi lo : Byte} (h : w.extractLsb' 0 16 = hi ++ lo) :
    w.extractLsb' 0 8 = lo := by
  rw [← BitVec.extractLsb'_extractLsb'_of_le (show 0 + 8 ≤ 16 by decide), h,
    BitVec.extractLsb'_append_eq_right]

/-! ### The illegal words -/

/-- The illegal words by their fields: 30_encoding R49 (a), (b), (c) and R50. -/
theorem decodeFields_eq_none_iff (c : CommandWord) : decodeFields c = none ↔
    c.rsv ≠ 0#12 ∨ ((c.op = 0x0#4 ∨ c.op = 0x1#4 ∨ c.op = 0x4#4) ∧ c.imm ≠ 0#16) ∨
      (c.op = 0x3#4 ∧ c.imm.extractLsb' 8 8 ≠ 0#8) ∨ 6 ≤ c.op.toNat := by
  obtain ⟨op, rsv, imm⟩ := c
  by_cases hrsv : rsv = 0#12
  · subst hrsv
    obtain hop | hop := op_cases op
    · rcases hop with rfl | rfl | rfl | rfl | rfl | rfl <;> simp
    · simp [decodeFields_of_reserved, hop]
  · simp [decodeFields_of_rsv, hrsv]

/-- Settles O4: `decodeFields_eq_none_iff` on the fields of the word. -/
theorem illegalWordsAreTheReservedAndMustBeZeroOnes :
    Obligations.IllegalWordsAreTheReservedAndMustBeZeroOnes := by
  intro w
  rw [← BitVec.extractLsb'_extractLsb'_of_le (x := w) (show 8 + 8 ≤ 16 by decide)]
  exact decodeFields_eq_none_iff (CommandWord.ofWord w)

end Sys2Proof

namespace Sys2Proof.Machine

/-! ### What a word does when it is issued -/

/-- NOP is the only command that changes nothing in any state (30_encoding R50): the writers of CRC
clear the CHECKED bit of a CHECK on the reset state, and CHECK sets it. -/
theorem eq_nop_of_exec_id {i : Instr} (h : ∀ s, exec i s = .next s) : i = .nop := by
  obtain ⟨hi, -⟩ | ⟨-, v, hv⟩ | ⟨u, rfl, -⟩ := exec_next (h (recordCheck true State.reset))
  · exact hi
  · cases congrArg State.checked hv
  · have hcheck : recordCheck (State.reset.crc == u) State.reset = State.reset :=
      Host.Outcome.next.inj (h State.reset)
    cases congrArg State.checked hcheck

/-- A word whose issue changes nothing in any state is NOP's. -/
theorem decode_of_issueCommand_id {w : Word} (h : ∀ s, issueCommand w s = .next s) :
    decode w = some .nop := by
  cases hd : decode w with
  | none =>
    have hraise : raiseIllegalCommand w State.reset = State.reset :=
      Host.Outcome.next.inj ((issueCommand_of_illegal hd _).symm.trans (h State.reset))
    cases congrArg State.err hraise
  | some i =>
    rw [eq_nop_of_exec_id fun s => (issueCommand_of_legal hd s).symm.trans (h s)]

/-- Settles O5: reserved opcodes by the decoder's equation for them, the illegal word by the error
entry's, and the no-op by `decode_of_issueCommand_id`. -/
theorem reservedOpcodesAreIllegalAndOnlyNopIsANoOp :
    Obligations.ReservedOpcodesAreIllegalAndOnlyNopIsANoOp := by
  refine ⟨fun w h => decodeFields_of_reserved (BitVec.le_def.1 h),
    fun w s h => issueCommand_of_illegal h s, fun w => ⟨fun h => ?_, ?_⟩⟩
  · exact (encode_of_decode (decode_of_issueCommand_id h)).symm
  · rintro rfl s
    exact issueCommand_of_legal (decode_encode .nop) s

/-- Settles O3: the decoder opcode by opcode, then the step by the decoder's two results. -/
theorem decoderFollowsTheFieldsOfTheWord : Obligations.DecoderFollowsTheFieldsOfTheWord := by
  refine ⟨fun op rsv imm => ?_, fun w rest s h => ?_⟩
  · have hdecode : decode (op ++ rsv ++ imm) = decodeFields ⟨op, rsv, imm⟩ :=
      congrArg decodeFields (ofWord_toWord ⟨op, rsv, imm⟩)
    rw [hdecode]
    by_cases hrsv : rsv = 0#12
    · subst hrsv
      obtain hop | hop := op_cases op
      · rcases hop with rfl | rfl | rfl | rfl | rfl | rfl <;> simp
      · rw [decodeFields_of_reserved hop]
        simp [ne_of_reserved hop]
    · rw [decodeFields_of_rsv hrsv, if_pos hrsv]
  · rw [step_cons h, performEvent_cmdWrite]
    cases hd : decode w with
    | some i => exact issueCommand_of_legal hd _
    | none => exact issueCommand_of_illegal hd _

/-! ### The operands -/

/-- Settles O6: IMM16 of a legal word is its command's (`imm_of_decode`), and `decode_encode` gives a
word for every operand. -/
theorem operandsAreTheirBitsOfTheWord : Obligations.OperandsAreTheirBitsOfTheWord := by
  refine ⟨fun w v h => (imm_of_decode h).symm, fun w b h => ?update,
    fun w t h => (imm_of_decode h).symm, fun w i hi h => ?noOperand,
    fun v => ⟨_, decode_encode (.load v)⟩, fun b => ⟨_, decode_encode (.update b)⟩,
    fun t => ⟨_, decode_encode (.check t)⟩, fun w hi lo h => ?wire⟩
  case update =>
    have himm := (imm_of_decode h).trans (setWidth_eq_zero_append b)
    exact ⟨(low_byte_of_imm himm).symm, high_byte_of_imm himm⟩
  case noOperand =>
    obtain rfl | rfl | rfl := hi <;> exact imm_of_decode h
  case wire =>
    have himm := (imm_of_decode h).trans (wireCrc_eq_append hi lo)
    exact ⟨high_byte_of_imm himm, low_byte_of_imm himm⟩

end Sys2Proof.Machine

/-! PROOFS. The family 40_crc_ops: the loop of `update` (40_crc_ops R61), and for each command its words,
its next state and its corner cases (R65 to R71). -/

namespace Sys2Proof

/-! ### The words of a command -/

/-- Two words are equal when their upper and their lower parts are. -/
theorem append_inj_iff {m n : Nat} {p q : BitVec m} {u v : BitVec n} :
    p ++ u = q ++ v ↔ p = q ∧ u = v := by
  refine ⟨fun h => ⟨?_, ?_⟩, by rintro ⟨rfl, rfl⟩; rfl⟩
  · simpa only [BitVec.extractLsb'_append_eq_left] using congrArg (BitVec.extractLsb' n m) h
  · simpa only [BitVec.extractLsb'_append_eq_right] using congrArg (BitVec.extractLsb' 0 n) h

/-- A word with fixed upper bits `p` above an operand `v`, as a mask and a match (40_crc_ops R67). -/
theorem eq_append_iff_mask {m n : Nat} {mask pattern : BitVec (m + n)} {p : BitVec m}
    (hmask : BitVec.allOnes m ++ 0#n = mask) (hpattern : p ++ 0#n = pattern)
    (w : BitVec (m + n)) (v : BitVec n) :
    w = p ++ v ↔ w &&& mask = pattern ∧ v = w.extractLsb' 0 n := by
  subst hmask hpattern
  generalize hu : w.extractLsb' n m = u
  generalize hx : w.extractLsb' 0 n = x
  obtain rfl : u ++ x = w := by rw [← hu, ← hx]; exact BitVec.extractLsb'_append_extractLsb'
  rw [BitVec.and_append, BitVec.and_allOnes, BitVec.and_zero, append_inj_iff, append_inj_iff]
  simp [eq_comm]

/-- The words of a command are one: its encoding. -/
theorem decode_eq_some_iff_encode {w : Word} {i : Instr} : decode w = some i ↔ w = encode i :=
  ⟨fun h => (encode_of_decode h).symm, fun h => h ▸ decode_encode i⟩

/-- A LOAD word is `0x2000` above its operand (40_crc_ops R67). -/
theorem encode_load (v : Crc16) : encode (.load v) = 0x2000#16 ++ v := by
  rw [show 0x2000#16 = 0x2#4 ++ 0#12 by decide]
  rfl

/-- A CHECK word is `0x5000` above its operand (40_crc_ops R70). -/
theorem encode_check (t : Crc16) : encode (.check t) = 0x5000#16 ++ t := by
  rw [show 0x5000#16 = 0x5#4 ++ 0#12 by decide]
  rfl

/-- An UPDATE word is `0x300000` above its byte (40_crc_ops R68). -/
theorem encode_update (b : Byte) : encode (.update b) = 0x300000#24 ++ b := by
  rw [show 0x300000#24 = (0x3#4 ++ 0#12) ++ 0x00#8 by decide, BitVec.append_assoc,
    ← setWidth_eq_zero_append]
  rfl

/-- The opcode of a legal word is its command's. -/
theorem op_of_decode {w : Word} {i : Instr} (h : decode w = some i) :
    w.extractLsb' 28 4 = i.fields.op :=
  congrArg CommandWord.op (decode_eq_some_iff.1 h)

/-- A command without an operand alone has its opcode (30_encoding R47). -/
theorem eq_of_op_eq {i j : Instr} (hi : i = .nop ∨ i = .init ∨ i = .finish)
    (h : j.fields.op = i.fields.op) : j = i := by
  obtain rfl | rfl | rfl := hi
  · cases j with
    | nop => rfl
    | init | load | update | finish | check => cases h
  · cases j with
    | init => rfl
    | nop | load | update | finish | check => cases h
  · cases j with
    | finish => rfl
    | nop | init | load | update | check => cases h

theorem eq_update_of_op {i : Instr} (h : i.fields.op = 0x3#4) : ∃ b, i = .update b := by
  cases i with
  | update b => exact ⟨b, rfl⟩
  | nop | init | load | finish | check => cases h

/-- Every other word with the opcode of a command without an operand is illegal
(30_encoding R49 (a), (b)). -/
theorem decode_eq_none_of_op {i : Instr} (hi : i = .nop ∨ i = .init ∨ i = .finish) {w : Word}
    (hop : w.extractLsb' 28 4 = i.fields.op) (hne : w ≠ encode i) : decode w = none := by
  cases hd : decode w with
  | none => rfl
  | some j =>
    obtain rfl : j = i := eq_of_op_eq hi ((op_of_decode hd).symm.trans hop)
    exact absurd (encode_of_decode hd).symm hne

/-- A word with a nonzero RSV is illegal (30_encoding R49 (a)). -/
theorem decode_eq_none_of_rsv {w : Word} (h : w.extractLsb' 16 12 ≠ 0#12) : decode w = none :=
  decodeFields_of_rsv (c := CommandWord.ofWord w) h

/-- An UPDATE word has zeros above its byte (30_encoding R49 (a), (c)). -/
theorem decode_eq_none_of_wide_update {w : Word} (hop : w.extractLsb' 28 4 = 0x3#4)
    (h : w.extractLsb' 8 20 ≠ 0#20) : decode w = none := by
  cases hd : decode w with
  | none => rfl
  | some i =>
    obtain ⟨b, rfl⟩ := eq_update_of_op ((op_of_decode hd).symm.trans hop)
    refine absurd ?_ h
    rw [decode_eq_some_iff_encode.1 hd, encode_update,
      BitVec.extractLsb'_append_eq_of_le (show 8 ≤ 8 by decide)]
    rfl

end Sys2Proof

namespace Sys2Proof.Machine

/-! ### The loop of `update` -/

/-- One turn as the pseudocode of 40_crc_ops R61 writes it. -/
theorem shiftIn_eq_ite (r : Crc16) (bit : Bool) :
    shiftIn r bit =
      if r.getLsbD 15 = true
      then ((r <<< 1) ||| (if bit then 0x0001#16 else 0x0000#16)) ^^^ 0x1021#16
      else (r <<< 1) ||| (if bit then 0x0001#16 else 0x0000#16) := by
  cases bit <;> rfl

/-- The register after `k` turns of the loop of 40_crc_ops R61, which take the bits from bit 7 down. -/
def registerAfter (crc : Crc16) (b : Byte) : Nat → Crc16
  | 0 => crc
  | k + 1 => shiftIn (registerAfter crc b k) (b.getLsbD (7 - k))

theorem update_eq_registerAfter (crc : Crc16) (b : Byte) : update crc b = registerAfter crc b 8 :=
  update_eq crc b

/-- The turn for bit `i` is the one after `7 - i` turns. -/
theorem registerAfter_turn (crc : Crc16) (b : Byte) {i : Nat} (hi : i < 8) :
    registerAfter crc b (8 - i) = shiftIn (registerAfter crc b (8 - (i + 1))) (b.getLsbD i) := by
  obtain ⟨k, hk, hik⟩ : ∃ k, 8 - i = k + 1 ∧ i = 7 - k := ⟨7 - i, by omega, by omega⟩
  have hlast : 8 - (i + 1) = k := by omega
  rw [hk, hlast, hik, registerAfter]

/-- Settles O9: `r i` is the register after `8 - i` turns. The direct form differs on `0x0000`, `0x01`,
where `update` gives `0x0001` and the direct step `0x1021`. -/
theorem updateIsTheAugmentedShiftRegisterLoop :
    Obligations.UpdateIsTheAugmentedShiftRegisterLoop := by
  refine ⟨fun crc b => ⟨fun i => registerAfter crc b (8 - i), rfl, fun i hi => ?_,
    update_eq_registerAfter crc b⟩, 0x0000#16, 0x01#8, by decide⟩
  exact (registerAfter_turn crc b hi).trans (shiftIn_eq_ite _ _)

/-! ### What each command does -/

@[simp] theorem exec_nop (s : State) : exec .nop s = .next s := rfl

@[simp] theorem exec_init (s : State) : exec .init s = .next (writeCrc initValue s) := rfl

@[simp] theorem exec_load (v : Crc16) (s : State) : exec (.load v) s = .next (writeCrc v s) := rfl

@[simp] theorem exec_update (b : Byte) (s : State) :
    exec (.update b) s = .next (writeCrc (update s.crc b) s) := rfl

@[simp] theorem exec_finish (s : State) :
    exec .finish s = .next (writeCrc (fold s.crc augment) s) := rfl

@[simp] theorem exec_check (t : Crc16) (s : State) :
    exec (.check t) s = .next (recordCheck (s.crc == t) s) := rfl

/-- A later write of CRC leaves nothing of an earlier one. -/
@[simp] theorem writeCrc_writeCrc (u v : Crc16) (s : State) :
    writeCrc v (writeCrc u s) = writeCrc v s := rfl

/-- A later CHECK leaves nothing of an earlier one (40_crc_ops R70). -/
@[simp] theorem recordCheck_recordCheck (a b : Bool) (s : State) :
    recordCheck b (recordCheck a s) = recordCheck b s := rfl

/-- Bytes fed after a write of CRC fold into the value written. -/
theorem execAll_feed_writeCrc (c : Crc16) (d : List Byte) (is : List Instr) (s : State) :
    execAll (feed d ++ is) (writeCrc c s) = execAll is (writeCrc (fold c d) s) :=
  execAll_feed_append d is (writeCrc c s) rfl rfl

/-- The canonical frame check leaves `compute(p)` in CRC and records `frameCrcOk` (41_frame_check R84). -/
theorem execAll_checkFrame (p : List Byte) (hi lo : Byte) (s : State) :
    execAll (checkFrame p hi lo) s =
      .next (recordCheck (frameCrcOk p hi lo) (writeCrc (compute p) s)) := by
  have hsplit : checkFrame p hi lo = .init :: (feed p ++ [.finish, .check (wireCrc hi lo)]) := by
    simp [checkFrame, computeCommands, checkWire]
  rw [hsplit, execAll_cons (exec_init s), execAll_feed_writeCrc, frameCrcOk, compute, fold_append]
  rfl

/-- The residue form leaves the fold of the payload and its CRC bytes, compared with 0
(41_frame_check R85). -/
theorem execAll_residueCheck (p : List Byte) (hi lo : Byte) (s : State) :
    execAll (residueCheck p hi lo) s =
      .next (recordCheck (fold initValue (p ++ [hi, lo]) == 0x0000#16)
        (writeCrc (fold initValue (p ++ [hi, lo])) s)) := by
  have hsplit : residueCheck p hi lo = .init :: (feed (p ++ [hi, lo]) ++ [.check 0x0000#16]) := by
    simp [residueCheck, feed]
  rw [hsplit, execAll_cons (exec_init s), execAll_feed_writeCrc]
  rfl

/-- The CRC of the bytes of `"123456789"` (40_crc_ops R61). -/
theorem compute_123456789 :
    compute [0x31#8, 0x32#8, 0x33#8, 0x34#8, 0x35#8, 0x36#8, 0x37#8, 0x38#8, 0x39#8] = 0x31C3#16 := by
  decide +kernel

/-- The transmitted CRC tells its two bytes apart (20_memory R34). -/
theorem wireCrc_inj {hi lo hi' lo' : Byte} :
    wireCrc hi lo = wireCrc hi' lo' ↔ hi = hi' ∧ lo = lo' := by
  rw [wireCrc_eq_append, wireCrc_eq_append, append_inj_iff]

/-- A byte-swapped CRC is right only when its bytes are equal (40_crc_ops R70). -/
theorem wireCrc_eq_swap_iff {hi lo : Byte} : wireCrc hi lo = wireCrc lo hi ↔ hi = lo := by
  rw [wireCrc_inj, eq_comm (a := lo), and_self]

/-! ### ERR and the outside in a legal command -/

/-- No command touches the pending events or the values read. -/
theorem exec_keeps_outside {i : Instr} {s t : State} (h : exec i s = .next t) :
    t.pending = s.pending ∧ t.readLog = s.readLog := by
  obtain ⟨-, rfl⟩ | ⟨-, v, rfl⟩ | ⟨u, -, rfl⟩ := exec_next h
  · exact ⟨rfl, rfl⟩
  · exact ⟨writeCrc_pending s v, writeCrc_readLog s v⟩
  · exact ⟨recordCheck_pending s _, recordCheck_readLog s _⟩

/-- No command reads ERR or ERRCMD: with other values of them it does the same to the rest of the
state. -/
theorem exec_with_err {i : Instr} {s t : State} (h : exec i s = .next t) (e : Bool) (w : Word) :
    exec i { s with err := e, errcmd := w } = .next { t with err := e, errcmd := w } := by
  cases i with
  | nop | init | load | update | finish | check => cases h; rfl

/-- A command completes in every state (40_crc_ops R65 to R70). -/
theorem exec_completes (i : Instr) (s : State) : ∃ t, exec i s = .next t := by
  cases i with
  | nop | init | load | update | finish | check => exact ⟨_, rfl⟩

/-- An event that changes ERR or ERRCMD is a reset or an illegal word. -/
theorem performEvent_changes_err {e : Event} {s t : State} (h : performEvent e s = .next t)
    (hne : t.err ≠ s.err ∨ t.errcmd ≠ s.errcmd) :
    (∃ c, e = .reset c) ∨ ∃ w, e.cmdWord? = some w ∧ decode w = none := by
  obtain ⟨r, -, rfl⟩ | ⟨r, v, -, -, rfl⟩ | ⟨w, i, -, -, hx⟩ | ⟨w, rfl, hd, -⟩ | ⟨c, he, -⟩ :=
    performEvent_next h
  · exact absurd hne (by simp)
  · exact absurd hne (by simp)
  · exact absurd hne (by simp [exec_keeps_err hx])
  · exact .inr ⟨w, cmdWord?_cmdWrite w, hd⟩
  · exact .inl ⟨c, he⟩

/-- Settles O27: a command's frame (`exec_keeps_err`, `exec_keeps_outside`), its independence of ERR
(`exec_with_err`), and the events that change ERR (`performEvent_changes_err`). -/
theorem legalCommandsNeitherWriteNorReadErr : Obligations.LegalCommandsNeitherWriteNorReadErr := by
  refine ⟨fun i s => ?_, fun s t e rest hp hs hreset hne => ?_⟩
  · obtain ⟨t, ht⟩ := exec_completes i s
    obtain ⟨herr, hcmd⟩ := exec_keeps_err ht
    obtain ⟨hpending, hlog⟩ := exec_keeps_outside ht
    exact ⟨t, ht, herr, hcmd, hpending, hlog, exec_with_err ht⟩
  · rw [step_cons hp] at hs
    obtain ⟨c, hc⟩ | hillegal := performEvent_changes_err hs hne
    · exact absurd hc (hreset c)
    · exact hillegal

/-! ### The commands, one by one -/

/-- Settles O19: NOP's word is its encoding, and NOP alone has OP 0 (`decode_eq_none_of_op`). -/
theorem nopChangesNothing : Obligations.NopChangesNothing := by
  refine ⟨fun w => decode_eq_some_iff_encode, exec_nop, fun w s hop hne => ?_, rfl, rfl, rfl⟩
  exact issueCommand_of_illegal (decode_eq_none_of_op (i := .nop) (.inl rfl) hop hne) s

/-- Settles O20: INIT's word is its encoding, and INIT alone has OP 1 (`decode_eq_none_of_op`). -/
theorem initClearsCrcAndCheckBits : Obligations.InitClearsCrcAndCheckBits := by
  refine ⟨fun w => decode_eq_some_iff_encode, exec_init, fun w s hop hne => ?_, fun s => ?_⟩
  · exact issueCommand_of_illegal (decode_eq_none_of_op (i := .init) (.inr (.inl rfl)) hop hne) s
  · rw [execAll_cons (exec_load _ s), execAll_cons (exec_init _)]
    exact ⟨_, execAll_nil _, writeCrc_crc _ _⟩

/-- Settles O21: the words by mask and match (`eq_append_iff_mask`), the example by feeding its bytes
after the LOAD (`execAll_feed_writeCrc`). -/
theorem loadWritesItsOperandToCrc : Obligations.LoadWritesItsOperandToCrc := by
  refine ⟨fun w v => ?_, exec_load,
    fun w s _ hrsv => issueCommand_of_illegal (decode_eq_none_of_rsv hrsv) s, fun s => rfl,
    fun s => ?_⟩
  · rw [decode_eq_some_iff_encode, encode_load]
    exact eq_append_iff_mask (m := 16) (n := 16) (by decide) (by decide) w v
  · rw [List.cons_append, execAll_cons (exec_load _ s), execAll_feed_writeCrc,
      execAll_cons (exec_finish _)]
    refine ⟨_, execAll_nil _, ?_⟩
    rw [writeCrc_crc, writeCrc_crc]
    decide +kernel

/-- Settles O22: the words by mask and match on `encode_update`, then the command's equations. -/
theorem updateFoldsOneByteIntoCrc : Obligations.UpdateFoldsOneByteIntoCrc := by
  refine ⟨fun w b => ?_, exec_update,
    fun w s hop h => issueCommand_of_illegal (decode_eq_none_of_wide_update hop h) s,
    fun s => ?_, fun s hs => ⟨_, exec_update _ s, ?_⟩⟩
  · rw [decode_eq_some_iff_encode, encode_update]
    exact eq_append_iff_mask (m := 24) (n := 8) (by decide) (by decide) w b
  · rw [execAll_cons (exec_update _ s), execAll_cons (exec_update _ _), execAll_nil, writeCrc_crc,
      writeCrc_writeCrc]
    rfl
  · rw [writeCrc_crc, hs]
    decide

/-- Settles O23: FINISH's word is its encoding, FINISH alone has OP 4 (`decode_eq_none_of_op`), and what
follows it folds on from the CRC it wrote. -/
theorem finishFoldsTwoZeroBytesIntoCrc : Obligations.FinishFoldsTwoZeroBytesIntoCrc := by
  refine ⟨fun w => decode_eq_some_iff_encode, exec_finish, fun w s hop hne => ?_, fun b s => ?_,
    fun s => ?_⟩
  · exact issueCommand_of_illegal (decode_eq_none_of_op (i := .finish) (.inr (.inr rfl)) hop hne) s
  · rw [execAll_cons (exec_finish s), execAll_cons (exec_update b _)]
    exact ⟨_, execAll_nil _, rfl⟩
  · rw [execAll_cons (exec_finish s), execAll_cons (exec_finish _)]
    exact ⟨_, execAll_nil _, rfl⟩

/-- Settles O25: the words by mask and match, the sequences by `execAll_residueCheck` and
`execAll_checkFrame`, the swapped operand by `wireCrc_eq_swap_iff`. -/
theorem checkComparesCrcWithItsOperand : Obligations.CheckComparesCrcWithItsOperand := by
  refine ⟨fun w t => ?words, exec_check,
    fun w s _ hrsv => issueCommand_of_illegal (decode_eq_none_of_rsv hrsv) s, fun t t' s => ?second,
    fun p hi lo s => ⟨_, execAll_residueCheck p hi lo s, ?residue⟩,
    fun hi lo s hs => ⟨_, exec_check _ s, ?swapped⟩,
    ⟨_, execAll_checkFrame _ _ _ _, ?right⟩, ⟨_, execAll_checkFrame _ _ _ _, ?wrong⟩⟩
  case words =>
    rw [decode_eq_some_iff_encode, encode_check]
    exact eq_append_iff_mask (m := 16) (n := 16) (by decide) (by decide) w t
  case second =>
    rw [execAll_cons (exec_check t s), execAll_cons (exec_check t' _), execAll_nil, recordCheck_crc,
      recordCheck_recordCheck, exec_check]
  case residue => rfl
  case swapped =>
    rw [recordCheck_matched, hs, beq_eq_decide, decide_eq_decide]
    exact wireCrc_eq_swap_iff
  case right => rw [frameCrcOk, compute_123456789]; rfl
  case wrong => rw [frameCrcOk, compute_123456789]; rfl

end Sys2Proof.Machine

/-! PROOFS. The family 60_exceptions: what raises no error (60_exceptions R100, R105), the error entry of
an illegal word (R102), and how long ERR and ERRCMD stay (R103). -/

namespace Sys2Proof.Machine

/-! ### Commands as the host writes them -/

/-- A write of a command's word to CMD is the command. -/
theorem performEvent_cmdWrite_encode (i : Instr) (s : State) :
    performEvent (.cmdWrite (encode i)) s = exec i s :=
  issueCommand_of_legal (decode_encode i) s

/-- The CMD writes that issue some commands, run as events, do what the commands do one after the
other (10_state R19, 20_memory R38). -/
theorem runAll_commandEvents (is : List Instr) (s : State) :
    runAll (commandEvents is) s = execAll is s := by
  induction is generalizing s with
  | nil => rfl
  | cons i is ih =>
    obtain ⟨t, ht⟩ := exec_completes i s
    have hevent : performEvent (.cmdWrite (encode i)) s = .next t :=
      (performEvent_cmdWrite_encode i s).trans ht
    rw [execAll_cons ht, ← ih t]
    exact runAll_cons hevent

/-- Feeding at least one byte is one write of CRC, the fold of the bytes (30_encoding R55). -/
theorem execAll_feed_cons (b : Byte) (d : List Byte) (s : State) :
    execAll (feed (b :: d)) s = .next (writeCrc (fold s.crc (b :: d)) s) :=
  calc execAll (feed (b :: d)) s
    _ = execAll (feed d ++ []) (writeCrc (update s.crc b) s) := by
      rw [List.append_nil]; exact execAll_cons (exec_update b s)
    _ = .next (writeCrc (fold s.crc (b :: d)) s) := by
      rw [execAll_feed_writeCrc, execAll_nil, fold_cons]

/-! ### ERR once it is set -/

/-- With ERR set, no event but a reset changes ERR or ERRCMD: an illegal word, the one other event that
writes them, finds ERR set and keeps the first word (60_exceptions R102, R103). -/
theorem performEvent_keeps_set_err {e : Event} {s t : State} (hs : s.err = true)
    (h : performEvent e s = .next t) (hreset : ∀ c, e ≠ .reset c) :
    t.err = true ∧ t.errcmd = s.errcmd := by
  obtain ⟨r, -, rfl⟩ | ⟨r, v, -, -, rfl⟩ | ⟨w, i, -, -, hx⟩ | ⟨w, -, -, rfl⟩ | ⟨c, he, -⟩ :=
    performEvent_next h
  · exact ⟨(regRead_err s r).trans hs, regRead_errcmd s r⟩
  · exact ⟨hs, rfl⟩
  · obtain ⟨herr, hcmd⟩ := exec_keeps_err hx
    exact ⟨herr.trans hs, hcmd⟩
  · exact ⟨raiseIllegalCommand_err s w, by rw [raiseIllegalCommand_errcmd, if_pos hs]⟩
  · exact absurd he (hreset c)

/-! ### The statements -/

/-- Settles O28: the host's writes do what the commands do (`runAll_commandEvents`); a command keeps ERR
and the outside (`exec_keeps_err`, `exec_keeps_outside`), and a payload is at most one write of CRC
(`execAll_feed_cons`). -/
theorem noCommandAndNoPayloadRaisesAnError : Obligations.NoCommandAndNoPayloadRaisesAnError := by
  refine ⟨fun i s => ?_, fun d s => ?_⟩
  · obtain ⟨t, ht⟩ := exec_completes i s
    obtain ⟨herr, hcmd⟩ := exec_keeps_err ht
    obtain ⟨hpending, -⟩ := exec_keeps_outside ht
    exact ⟨t, (runAll_commandEvents [i] s).trans (execAll_cons ht), herr, hcmd, hpending⟩
  · rw [runAll_commandEvents]
    cases d with
    | nil => exact ⟨s, execAll_nil s, rfl, rfl, rfl, rfl, rfl⟩
    | cons b d =>
      exact ⟨_, execAll_feed_cons b d s, writeCrc_crc s _, writeCrc_err s _, writeCrc_errcmd s _,
        writeCrc_pending s _, writeCrc_readLog s _⟩

/-- Settles O31: no event but a reset changes a set ERR (`performEvent_keeps_set_err`), no command reads
it (`exec_with_err`), and a reset clears it. -/
theorem errStaysUntilReset : Obligations.ErrStaysUntilReset := by
  refine ⟨fun s t e rest hs hp hreset hstep => ?_, fun i s _ => ?_, fun s c rest hp => ?_⟩
  · rw [step_cons hp] at hstep
    exact performEvent_keeps_set_err (s := { s with pending := rest }) hs hstep hreset
  · obtain ⟨t, ht⟩ := exec_completes i s
    obtain ⟨-, hcmd⟩ := exec_keeps_err ht
    exact ⟨t, ht, (exec_with_err ht false s.errcmd).trans (by rw [← hcmd])⟩
  · exact ⟨_, (step_cons hp).trans (performEvent_reset c _), applyReset_err _ c⟩

/-- Settles O26: CHECK records the comparison and nothing else, and the comparison fails. -/
theorem mismatchIsNotAnError : Obligations.MismatchIsNotAnError := by
  intro t s hne
  rw [exec_check, beq_eq_false_iff_ne.2 hne]
  rfl

/-- Settles O30: the step is the error entry (`issueCommand_of_illegal`), and no command reads what it
writes (`exec_with_err`). -/
theorem illegalWordTakesTheErrorEntry : Obligations.IllegalWordTakesTheErrorEntry := by
  intro s w rest hp hd
  refine ⟨?_, fun i t ht => exec_with_err ht true _⟩
  rw [step_cons hp, performEvent_cmdWrite]
  exact issueCommand_of_illegal hd _

end Sys2Proof.Machine

/-! PROOFS. The family 70_reset_and_hazards: a command is complete before the next access
(70_reset R125). -/

namespace Sys2Proof.Machine

/-- The events after a CMD write run from the command's result: it has no delay slot and no write
latency. -/
theorem runAll_cmdWrite_cons {w : Word} {s t : State} (h : issueCommand w s = .next t)
    (es : List Event) : runAll (.cmdWrite w :: es) s = runAll es t :=
  runAll_cons ((performEvent_cmdWrite w s).trans h)

/-- A CMD write on its own is the command it issues. -/
theorem runAll_cmdWrite (w : Word) (s : State) : runAll [.cmdWrite w] s = issueCommand w s := by
  obtain ⟨t, ht⟩ := issueCommand_completes w s
  rw [runAll_cmdWrite_cons ht, runAll_nil, ht]

/-- Settles O39: the write completes (`issueCommand_completes`), and the access after it runs from its
result (`runAll_cmdWrite_cons`). -/
theorem commandIsCompleteBeforeTheNextAccess :
    Obligations.CommandIsCompleteBeforeTheNextAccess := by
  intro s w
  obtain ⟨t, ht⟩ := issueCommand_completes w s
  refine ⟨t, ht, fun r => ?read, fun w' => ?command⟩
  case read => rw [runAll_cmdWrite_cons ht, runAll_rd_cons, runAll_nil, regRead]
  case command => rw [runAll_cmdWrite_cons ht, runAll_cmdWrite]

end Sys2Proof.Machine

/-! PROOFS. The statements on the encoding: decoder and encoder are inverse (30_encoding R51), the
counts of legal words (R52), the opcode table, and the assembler's words (R54). -/

namespace Sys2Proof

/-! ### Decoder and encoder -/

/-- Operands are typed by their width, so every command is well formed (30_encoding R48). -/
theorem wellFormed_eq_true (i : Instr) : i.wellFormed = true := by
  cases i with
  | nop => exact Laws.WordFields.nop.2
  | init => exact Laws.WordFields.init.2
  | load v => exact (Laws.WordFields.load v).2
  | update b => exact (Laws.WordFields.update b).2
  | finish => exact Laws.WordFields.finish.2
  | check t => exact (Laws.WordFields.check t).2

/-- Settles O2: the words of a command are its encoding, and every command is well formed. -/
theorem decodeAndEncodeAgree : Obligations.DecodeAndEncodeAgree := by
  intro w i
  rw [decode_eq_some_iff_encode, eq_comm]
  exact (and_iff_right (wellFormed_eq_true i)).symm

/-- Settles O1: each of the six words is the encoding of its command. -/
theorem wordsWrittenOutDecodeToTheirCommands :
    Obligations.WordsWrittenOutDecodeToTheirCommands :=
  ⟨decode_encode .nop, decode_encode .init, decode_encode (.load 0xBEEF#16),
    decode_encode (.update 0x31#8), decode_encode .finish, decode_encode (.check 0x31C3#16)⟩

/-! ### How many words are legal -/

/-- Two commands have two words. -/
theorem encode_injective : Function.Injective encode := by
  intro i j h
  have hd := decode_encode i
  rw [h, decode_encode] at hd
  exact (Option.some.inj hd).symm

/-- One command has one word. -/
theorem card_words_of (i : Instr) : Nat.card {w : Word // decode w = some i} = 1 := by
  simp only [decode_eq_some_iff_encode]
  exact Nat.card_unique

/-- Commands that differ in an operand have as many words as the operand has values. -/
theorem card_words_of_operand {α : Type} {f : α → Instr} (hf : Function.Injective f) :
    Nat.card {w : Word // ∃ a, decode w = some (f a)} = Nat.card α := by
  have hrange : {w : Word | ∃ a, decode w = some (f a)} = Set.range (encode ∘ f) :=
    Set.ext fun w => exists_congr fun a => decode_eq_some_iff_encode.trans eq_comm
  exact (congrArg (fun S : Set Word => Nat.card S) hrange).trans
    (Nat.card_range_of_injective (encode_injective.comp hf))

theorem card_bitVec (n : Nat) : Nat.card (BitVec n) = 2 ^ n := by
  rw [Nat.card_congr BitVec.equivFin.toEquiv, Nat.card_fin]

/-- The commands by their operands: NOP, INIT, FINISH, then LOAD, CHECK and UPDATE. -/
def instrEquivOperands : Instr ≃ (Fin 3 ⊕ Crc16) ⊕ (Crc16 ⊕ Byte) where
  toFun
    | .nop => .inl (.inl 0)
    | .init => .inl (.inl 1)
    | .finish => .inl (.inl 2)
    | .load v => .inl (.inr v)
    | .check t => .inr (.inl t)
    | .update b => .inr (.inr b)
  invFun
    | .inl (.inl 0) => .nop
    | .inl (.inl 1) => .init
    | .inl (.inl 2) => .finish
    | .inl (.inr v) => .load v
    | .inr (.inl t) => .check t
    | .inr (.inr b) => .update b
  left_inv i := by cases i <;> rfl
  right_inv x := by
    obtain (k | v) | (t | b) := x
    · fin_cases k <;> rfl
    all_goals rfl

theorem card_instr : Nat.card Instr = 131331 := by
  rw [Nat.card_congr instrEquivOperands]
  simp only [Nat.card_sum, Nat.card_fin, card_bitVec]
  norm_num

theorem card_legal_words : Nat.card {w : Word // (decode w).isSome = true} = 131331 := by
  simp only [Option.isSome_iff_exists]
  exact (card_words_of_operand Function.injective_id).trans card_instr

/-- The illegal words are the rest of the 2 ^ 32. -/
theorem card_illegal_words : Nat.card {w : Word // decode w = none} = 2 ^ 32 - 131331 := by
  have hsplit := Nat.card_congr (Equiv.sumCompl fun w : Word => (decode w).isSome = true)
  rw [Nat.card_sum, card_legal_words, card_bitVec] at hsplit
  simp only [Option.not_isSome_iff_eq_none] at hsplit
  omega

/-- Settles O7: a command has one word for each value of its operand. -/
theorem legalWordsAreCounted : Obligations.LegalWordsAreCounted :=
  ⟨card_words_of .nop, card_words_of .init,
    (card_words_of_operand fun _ _ => Instr.load.inj).trans (card_bitVec 16),
    (card_words_of_operand fun _ _ => Instr.update.inj).trans (card_bitVec 8),
    card_words_of .finish,
    (card_words_of_operand fun _ _ => Instr.check.inj).trans (card_bitVec 16),
    card_legal_words, card_illegal_words⟩

/-! ### The opcode table -/

/-- A row covers the words whose bits under its mask are its pattern. -/
theorem covers_iff (r : OpcodeRow) (w : Word) : r.covers w = true ↔ w &&& r.mask = r.pattern :=
  beq_iff_eq

/-- A mnemonic without an operand is one command's (30_encoding R47). -/
theorem mnemonic_eq_iff {i : Instr} (hi : i = .nop ∨ i = .init ∨ i = .finish) (j : Instr) :
    j.mnemonic = i.mnemonic ↔ j = i := by
  obtain rfl | rfl | rfl := hi <;> cases j <;> simp [Instr.mnemonic]

theorem mnemonic_eq_load_iff (j : Instr) : j.mnemonic = "LOAD" ↔ ∃ v, j = .load v := by
  cases j <;> simp [Instr.mnemonic]

theorem mnemonic_eq_update_iff (j : Instr) : j.mnemonic = "UPDATE" ↔ ∃ b, j = .update b := by
  cases j <;> simp [Instr.mnemonic]

theorem mnemonic_eq_check_iff (j : Instr) : j.mnemonic = "CHECK" ↔ ∃ t, j = .check t := by
  cases j <;> simp [Instr.mnemonic]

/-- A row with a full mask covers the one word of its command. -/
theorem covers_full_iff {i : Instr} (hi : i = .nop ∨ i = .init ∨ i = .finish) (w : Word) :
    OpcodeRow.covers ⟨i.mnemonic, encode i, 0xFFFFFFFF#32⟩ w = true ↔
      ∃ j, decode w = some j ∧ j.mnemonic = i.mnemonic := by
  have hmask : w &&& 0xFFFFFFFF#32 = w := BitVec.and_allOnes
  simp only [covers_iff, hmask, mnemonic_eq_iff hi, exists_eq_right, decode_eq_some_iff_encode]

/-- A row that leaves the operand open covers the words of its command with every operand. -/
theorem covers_operand_iff {α : Type} {r : OpcodeRow} {f : α → Instr} {operand : Word → α}
    (hf : ∀ j : Instr, j.mnemonic = r.mnemonic ↔ ∃ a, j = f a)
    (hw : ∀ w a, decode w = some (f a) ↔ w &&& r.mask = r.pattern ∧ a = operand w)
    (w : Word) : r.covers w = true ↔ ∃ j, decode w = some j ∧ j.mnemonic = r.mnemonic := by
  rw [covers_iff]
  constructor
  · exact fun h => ⟨f (operand w), (hw w _).2 ⟨h, rfl⟩, (hf _).2 ⟨_, rfl⟩⟩
  · rintro ⟨j, hd, hj⟩
    obtain ⟨a, rfl⟩ := (hf j).1 hj
    exact ((hw w a).1 hd).1

/-- Each row covers the words that decode to its mnemonic. -/
theorem covers_iff_mnemonic {r : OpcodeRow} (hr : r ∈ opcodeTable) (w : Word) :
    r.covers w = true ↔ ∃ i, decode w = some i ∧ i.mnemonic = r.mnemonic := by
  simp only [opcodeTable, List.mem_cons, List.not_mem_nil, or_false] at hr
  obtain rfl | rfl | rfl | rfl | rfl | rfl := hr
  · exact covers_full_iff (i := .nop) (.inl rfl) w
  · exact covers_full_iff (i := .init) (.inr (.inl rfl)) w
  · exact covers_operand_iff mnemonic_eq_load_iff Machine.loadWritesItsOperandToCrc.1 w
  · exact covers_operand_iff mnemonic_eq_update_iff Machine.updateFoldsOneByteIntoCrc.1 w
  · exact covers_full_iff (i := .finish) (.inr (.inr rfl)) w
  · exact covers_operand_iff mnemonic_eq_check_iff Machine.checkComparesCrcWithItsOperand.1 w

theorem mnemonic_injOn_opcodeTable :
    ∀ r ∈ opcodeTable, ∀ r' ∈ opcodeTable, r.mnemonic = r'.mnemonic → r = r' := by decide

/-- Settles O8: a row covers the words of its mnemonic (`covers_iff_mnemonic`), a word decodes to
one command only, and no two rows share a mnemonic. -/
theorem opcodeTableRowsAreWhatTheDecoderReads :
    Obligations.OpcodeTableRowsAreWhatTheDecoderReads := by
  refine ⟨fun w r hr => covers_iff_mnemonic hr w, fun w r hr r' hr' h h' => ?_⟩
  obtain ⟨i, hi, hm⟩ := (covers_iff_mnemonic hr w).1 h
  obtain ⟨i', hi', hm'⟩ := (covers_iff_mnemonic hr' w).1 h'
  obtain rfl : i = i' := Option.some.inj (hi.symm.trans hi')
  exact mnemonic_injOn_opcodeTable r hr r' hr' (hm.symm.trans hm')

/-! ### The assembler -/

/-- A number that fits into the lower part of a word has zeros above it. -/
theorem ofNat_eq_zero_append {m n v : Nat} (h : v < 2 ^ n) :
    BitVec.ofNat (m + n) v = 0#m ++ BitVec.ofNat n v := by
  have hwide : 2 ^ n ≤ 2 ^ (m + n) := Nat.pow_le_pow_right (by decide) (Nat.le_add_left n m)
  apply BitVec.eq_of_toNat_eq
  simp [BitVec.toNat_append, Nat.mod_eq_of_lt h, Nat.mod_eq_of_lt (h.trans_le hwide)]

/-- An operand that fits is written below the upper bits of the command word (30_encoding R54). -/
theorem append_ofNat_eq_or {m n v : Nat} {pattern : BitVec (m + n)} {p : BitVec m}
    (hpattern : p ++ 0#n = pattern) (h : v < 2 ^ n) :
    p ++ BitVec.ofNat n v = pattern ||| BitVec.ofNat (m + n) v := by
  rw [← hpattern, ofNat_eq_zero_append h, BitVec.or_append, BitVec.or_zero, BitVec.zero_or]

/-- A command with an operand assembles to its word when the operand fits, and is refused when not.
-/
theorem map_encode_ite {v n : Nat} {i : Instr} {w : Word} (h : v ≤ n → encode i = w) :
    (if v ≤ n then some i else none).map encode = if v ≤ n then some w else none := by
  split_ifs with hv
  · rw [Option.map_some, h hv]
  · rfl

/-- Settles O57: the word of an operand that fits is the command's upper bits OR the operand
(`append_ofNat_eq_or`). -/
theorem assemblerWritesTheCommandWords : Obligations.AssemblerWritesTheCommandWords := by
  refine ⟨rfl, rfl, rfl, fun v => map_encode_ite fun hv => ?load,
    fun b => map_encode_ite fun hb => ?update, fun t => map_encode_ite fun ht => ?check,
    fun m n hm => ?refused, fun w hw => if_pos hw⟩
  case load =>
    rw [encode_load]
    exact append_ofNat_eq_or (m := 16) (n := 16) (by decide) (by omega)
  case update =>
    rw [encode_update]
    exact append_ofNat_eq_or (m := 24) (n := 8) (by decide) (by omega)
  case check =>
    rw [encode_check]
    exact append_ofNat_eq_or (m := 16) (n := 16) (by decide) (by omega)
  case refused =>
    obtain rfl | rfl | rfl := hm <;> rfl

end Sys2Proof

/-! PROOFS. The algebra of the shift register (41_frame_check R85 to R91): the byte-split law,
linearity, injectivity, the direct form, and the remainder it holds. -/

namespace Sys2Proof.Machine

/-! ### The byte-split law -/

/-- A register is its high byte above its low byte. -/
theorem high_append_low (c : Crc16) : c.extractLsb' 8 8 ++ c.extractLsb' 0 8 = c :=
  BitVec.extractLsb'_append_extractLsb'

/-- The two halves of a register do not overlap. -/
theorem append_eq_xor (h l : Byte) : h ++ l = (h ++ 0x00#8) ^^^ (0x00#8 ++ l) := by
  rw [BitVec.xor_append, BitVec.xor_zero, BitVec.zero_xor]

/-- A byte shifted up stands in the high half. -/
theorem setWidth_shiftLeft (b : Byte) : b.setWidth 16 <<< 8 = b ++ 0x00#8 := by
  rw [← wireCrc_eq_append, wireCrc]
  exact BitVec.or_zero.symm

/-- A byte that enters an empty register stands in its low byte (40_crc_ops R62). -/
theorem update_zero (b : Byte) : update 0#16 b = 0x00#8 ++ b := by
  revert b; decide

/-- A byte in the low half of the register moves to the high half. -/
theorem update_low_zero (l : Byte) : update (0x00#8 ++ l) 0x00#8 = l ++ 0x00#8 := by
  revert l; decide

/-- The byte enters by exclusive or (41_frame_check R86). -/
theorem update_eq_xor (c : Crc16) (b : Byte) :
    update c b = update c 0x00#8 ^^^ (0x00#8 ++ b) := by
  have hsplit := update_xor c 0#16 0x00#8 b
  rwa [BitVec.xor_zero, BitVec.zero_xor, update_zero] at hsplit

/-- On a zero byte `update` is linear in the register alone. -/
theorem update_xor_zero (c d : Crc16) :
    update (c ^^^ d) 0x00#8 = update c 0x00#8 ^^^ update d 0x00#8 :=
  update_xor c d 0x00#8 0x00#8

/-- `tab` is the step that shifts its byte out of the register. -/
theorem tab_eq (h : Byte) : tab h = update (h ++ 0x00#8) 0x00#8 := by
  rw [tab, setWidth_shiftLeft]

/-- The byte-split law: the low byte moves up, the new byte enters below it, and the high byte
leaves through `tab` (41_frame_check R86). -/
theorem update_append (h l b : Byte) : update (h ++ l) b = (l ++ b) ^^^ tab h := by
  rw [update_eq_xor, append_eq_xor h l, update_xor_zero, update_low_zero, ← tab_eq,
    append_eq_xor l b]
  ac_rfl

/-- With an empty high byte nothing leaves the register. -/
theorem update_low (l b : Byte) : update (0x00#8 ++ l) b = l ++ b := by
  have htab : tab 0x00#8 = 0#16 := by decide
  rw [update_append, htab]
  exact BitVec.xor_zero

/-- Settles O11: the register is a high byte above a low byte, and the byte-split law is
`update_append`. -/
theorem updateSplitsIntoByteAndTable : Obligations.UpdateSplitsIntoByteAndTable := by
  intro c b
  refine ⟨?enter, ?split, ?table, by decide, by decide, by decide, by decide, by decide⟩
  case enter => rw [setWidth_eq_zero_append, ← update_eq_xor]
  all_goals
    rw [← high_append_low c]
    generalize c.extractLsb' 8 8 = h
    generalize c.extractLsb' 0 8 = l
    have hlow : ((h ++ l) &&& 0x00FF#16) <<< 8 = l ++ 0x00#8 := by
      rw [show 0x00FF#16 = 0x00#8 ++ 0xFF#8 by decide, BitVec.and_append, BitVec.and_zero,
        show 0xFF#8 = BitVec.allOnes 8 by decide, BitVec.and_allOnes, ← setWidth_eq_zero_append,
        setWidth_shiftLeft]
  case split =>
    have hhigh : (h ++ l) &&& 0xFF00#16 = h ++ 0x00#8 := by
      rw [show 0xFF00#16 = 0xFF#8 ++ 0x00#8 by decide, BitVec.and_append, BitVec.and_zero,
        show 0xFF#8 = BitVec.allOnes 8 by decide, BitVec.and_allOnes]
    rw [hlow, hhigh, update_append, tab_eq]
  case table =>
    rw [hlow, update_append, setWidth_eq_zero_append, BitVec.or_append, BitVec.or_zero,
      BitVec.zero_or, BitVec.extractLsb'_append_eq_left]

/-- Settles O10: a byte in an empty register stands in its low byte; the other values by evaluation.
-/
theorem updateCornerValues : Obligations.UpdateCornerValues :=
  ⟨fun b => (update_zero b).trans (setWidth_eq_zero_append b).symm, by decide, by decide, by decide⟩

/-! ### Zero bytes and linearity -/

/-- Zero bytes leave the empty register empty. -/
theorem fold_replicate_zero (n : Nat) : fold 0#16 (List.replicate n 0x00#8) = 0#16 := by
  induction n with
  | zero => rfl
  | succ n ih => rw [List.replicate_succ, fold_cons, update_zero_zero, ih]

theorem fold_zero_augment : fold 0#16 augment = 0#16 := fold_replicate_zero 2

/-- Settles O12: the two bytes `compute` appends are zero bytes too. -/
theorem computeOfNoBytesAndOfZeroBytes : Obligations.ComputeOfNoBytesAndOfZeroBytes := by
  refine ⟨rfl, fold_zero_augment, fun n => ?_⟩
  have haugment : augment = List.replicate 2 0x00#8 := rfl
  rw [compute, haugment, List.replicate_append_replicate]
  exact fold_replicate_zero (n + 2)

/-- Settles O16: a leading zero byte leaves the register at its initial value. -/
theorem leadingZeroBytesAreInvisible : Obligations.LeadingZeroBytesAreInvisible :=
  ⟨fun d => congrArg (fold · (d ++ augment)) update_zero_zero, by decide +kernel⟩

/-- Settles O15: the appended zero bytes are their own exclusive or, and `fold` is linear. -/
theorem computeIsLinear : Obligations.ComputeIsLinear := by
  intro d1 d2 hlen
  have hlen' : (d1 ++ augment).length = (d2 ++ augment).length := by simp [hlen]
  calc compute (List.zipWith (· ^^^ ·) d1 d2)
    _ = fold (initValue ^^^ initValue)
          (List.zipWith (· ^^^ ·) (d1 ++ augment) (d2 ++ augment)) := by
      rw [List.zipWith_append hlen]; rfl
    _ = compute d1 ^^^ compute d2 := fold_xor hlen' _ _

/-! ### The residue -/

/-- Two bytes that follow a message enter the augmented register as they are: the residue law
(41_frame_check R85). -/
theorem fold_wire (c : Crc16) (hi lo : Byte) :
    fold c [hi, lo] = fold c augment ^^^ wireCrc hi lo :=
  calc fold c [hi, lo]
    _ = update (update c 0x00#8 ^^^ (0x00#8 ++ hi)) (0x00#8 ^^^ lo) := by
      rw [← update_eq_xor, BitVec.zero_xor]; rfl
    _ = fold c augment ^^^ wireCrc hi lo := by
      rw [update_xor, update_low, wireCrc_eq_append]; rfl

theorem fold_payload_wire (p : List Byte) (hi lo : Byte) :
    fold initValue (p ++ [hi, lo]) = compute p ^^^ wireCrc hi lo := by
  rw [fold_append, fold_wire, ← fold_append, compute]

theorem frameCrcOk_iff {p : List Byte} {hi lo : Byte} :
    frameCrcOk p hi lo = true ↔ compute p = wireCrc hi lo :=
  beq_iff_eq

/-- The residue is 0 exactly on a right frame. -/
theorem residue_eq_zero_iff (p : List Byte) (hi lo : Byte) :
    fold initValue (p ++ [hi, lo]) = 0#16 ↔ frameCrcOk p hi lo = true := by
  rw [fold_payload_wire, BitVec.xor_eq_zero_iff, frameCrcOk_iff]

/-- Settles O17: the residue law (`fold_payload_wire`); the other byte order fails on the frame of
the byte `0x41`, whose CRC is `0x58E5`. -/
theorem residueIsZeroExactlyWhenTheFrameCrcIsRight :
    Obligations.ResidueIsZeroExactlyWhenTheFrameCrcIsRight :=
  ⟨fun p hi lo => ⟨fold_payload_wire p hi lo, residue_eq_zero_iff p hi lo⟩,
    [0x41#8], 0x58#8, 0xE5#8, by decide +kernel, by decide +kernel⟩

/-! ### A single bit flip -/

/-- `fold` takes the bits of its bytes in order (20_memory R35, R36). -/
theorem fold_eq_foldl_shiftIn (c : Crc16) (d : List Byte) :
    fold c d = (d.flatMap bitsMsbFirst).foldl shiftIn c := by
  induction d generalizing c with
  | nil => rfl
  | cons b d ih => rw [List.flatMap_cons, List.foldl_append, fold_cons, ih]; rfl

/-- The feedback enters at bit 0 of `poly`, so only the empty register is shifted to 0. -/
theorem eq_zero_of_shiftIn_eq_zero {r : Crc16} (h : shiftIn r false = 0#16) : r = 0#16 := by
  have hmsb : r.getLsbD 15 = false := by
    have hbit : (shiftIn r false).getLsbD 0 = r.getLsbD 15 := by
      rw [shiftIn_eq_xor]
      cases r.getLsbD 15 <;> simp [poly]
    rw [← hbit, h, BitVec.getLsbD_zero]
  have hshift : r <<< 1 = 0#16 := by
    rw [shiftIn_eq_xor, hmsb] at h
    simpa using h
  apply BitVec.eq_of_getLsbD_eq
  intro i hi
  obtain rfl | hlt : i = 15 ∨ i + 1 < 16 := by omega
  · exact hmsb
  · have hbit := congrArg (BitVec.getLsbD · (i + 1)) hshift
    simpa [hlt, hi] using hbit

/-- A shift keeps two registers apart. -/
theorem shiftIn_left_injective (bit : Bool) : Function.Injective (shiftIn · bit) := by
  intro r q h
  have hxor := shiftIn_xor r q bit bit
  rw [Bool.xor_self, BitVec.xor_eq_zero_iff.2 h] at hxor
  exact BitVec.xor_eq_zero_iff.1 (eq_zero_of_shiftIn_eq_zero hxor)

theorem foldl_shiftIn_injective (bits : List Bool) : Function.Injective (bits.foldl shiftIn ·) := by
  induction bits with
  | nil => exact Function.injective_id
  | cons bit bits ih => exact ih.comp (shiftIn_left_injective bit)

/-- Two registers fed the same bytes stay apart. -/
theorem fold_left_injective (d : List Byte) : Function.Injective (fold · d) := by
  simp only [fold_eq_foldl_shiftIn]
  exact foldl_shiftIn_injective _

/-- Two bytes fed to the same register leave it apart. -/
theorem update_right_injective (c : Crc16) : Function.Injective (update c) := by
  intro a b h
  rw [update_eq_xor c a, update_eq_xor c b, BitVec.xor_right_inj] at h
  exact (append_inj_iff.1 h).2

/-- Changing one byte of a message changes its CRC. -/
theorem compute_ne_of_byte_ne {a b : Byte} (h : a ≠ b) (d e : List Byte) :
    compute (d ++ a :: e) ≠ compute (d ++ b :: e) := by
  intro hcompute
  simp only [compute, List.append_assoc, List.cons_append, fold_append initValue d,
    fold_cons] at hcompute
  exact h (update_right_injective _ (fold_left_injective _ hcompute))

/-- Flipping a bit changes its byte. -/
theorem xor_bit_ne (b : Byte) {j : Nat} (hj : j < 8) : b ^^^ (1#8 <<< j) ≠ b := by
  have hbit : ∀ k < 8, 1#8 <<< k ≠ 0#8 := by decide
  intro h
  have hxor : b ^^^ (1#8 <<< j) = b ^^^ 0#8 := by rw [h, BitVec.xor_zero]
  exact hbit j hj ((BitVec.xor_right_inj b).1 hxor)

theorem compute_flipBit_ne {p : List Byte} {i j : Nat} (hi : i < p.length) (hj : j < 8) :
    compute (flipBit p i j) ≠ compute p := by
  have hp : p = p.take i ++ p[i] :: p.drop (i + 1) := by simp
  rw [flipBit, List.modify_eq_take_cons_drop hi]
  conv_rhs => rw [hp]
  exact compute_ne_of_byte_ne (xor_bit_ne p[i] hj) _ _

theorem frameCrcOk_flipBit {p : List Byte} {i j : Nat} (hi : i < p.length) (hj : j < 8)
    {hb lb : Byte} (h : frameCrcOk p hb lb = true) : frameCrcOk (flipBit p i j) hb lb = false := by
  rw [frameCrcOk_iff] at h
  rw [Bool.eq_false_iff, Ne, frameCrcOk_iff, ← h]
  exact compute_flipBit_ne hi hj

/-- Settles O18: a flip changes one byte (`xor_bit_ne`), and every shift keeps two registers apart.
-/
theorem everySingleBitFlipIsDetected : Obligations.EverySingleBitFlipIsDetected :=
  fun _ _ _ hi hj => ⟨compute_flipBit_ne hi hj, fun _ _ h => frameCrcOk_flipBit hi hj h⟩

/-! ### The direct form -/

theorem directShift_poly (r : Crc16) : directShift poly r = shiftIn r false := by
  simp [directShift, shiftIn]

/-- The direct step is a step of the augmented register on a zero byte, the data byte entering at
the top. -/
theorem directUpdate_eq (c : Crc16) (b : Byte) :
    directUpdate poly c b = update (c ^^^ (b ++ 0x00#8)) 0x00#8 := by
  rw [directUpdate, setWidth_shiftLeft, funext directShift_poly]
  rfl

/-- The direct form runs two zero bytes ahead of the augmented register (41_frame_check R87). -/
theorem directUpdate_fold_augment (c : Crc16) (b : Byte) :
    directUpdate poly (fold c augment) b = fold (update c b) augment := by
  rw [directUpdate_eq, ← wireCrc_eq_append, ← fold_wire]
  rfl

theorem foldl_directUpdate (c : Crc16) (d : List Byte) :
    d.foldl (directUpdate poly) (fold c augment) = fold c (d ++ augment) := by
  induction d generalizing c with
  | nil => rfl
  | cons b d ih => rw [List.foldl_cons, directUpdate_fold_augment, ih]; rfl

/-- Without reflection and without an output mask the catalogue's CRC is the direct form from 0. -/
theorem catalogueCrc_xmodem (d : List Byte) :
    catalogueCrc xmodem d = d.foldl (directUpdate poly) 0#16 :=
  BitVec.xor_zero

theorem compute_eq_catalogueCrc (d : List Byte) : compute d = catalogueCrc xmodem d := by
  have hdirect := foldl_directUpdate 0#16 d
  rw [fold_zero_augment] at hdirect
  exact hdirect.symm.trans (catalogueCrc_xmodem d).symm

/-- The bytes a sender transmits are its frame's CRC (41_frame_check R89). -/
theorem frameCrcOk_sender (p : List Byte) : frameCrcOk p (senderHi p) (senderLo p) = true := by
  rw [frameCrcOk_iff, wireCrc_eq_append, senderHi, senderLo, high_append_low]

/-- Settles O14: the direct form runs two zero bytes ahead (`foldl_directUpdate`), and the residue
of a sender's frame is that of two zero bytes. -/
theorem computeEqualsCatalogueXmodem : Obligations.ComputeEqualsCatalogueXmodem := by
  refine ⟨compute_eq_catalogueCrc, compute_123456789, fun d => ?_⟩
  have hres := (residue_eq_zero_iff d _ _).2 (frameCrcOk_sender d)
  rw [← compute_eq_catalogueCrc, compute, fold_append, hres]
  exact fold_zero_augment

/-! ### The remainder -/

section Remainder

open Polynomial

/-- A register as a polynomial over GF(2), bit `i` the coefficient of `x^i` (00_scope R8). -/
noncomputable def regPoly (r : Crc16) : (ZMod 2)[X] :=
  ∑ i ∈ Finset.range 16, if r.getLsbD i then X ^ i else 0

/-- A message bit as a constant polynomial. -/
noncomputable def bitPoly (b : Bool) : (ZMod 2)[X] := if b then 1 else 0

/-- The generator `x^16 + x^12 + x^5 + 1` (40_crc_ops R60). -/
noncomputable def genPoly : (ZMod 2)[X] := X ^ 16 + X ^ 12 + X ^ 5 + 1

/-- Exclusive or is addition over GF(2). -/
theorem regPoly_xor (r q : Crc16) : regPoly (r ^^^ q) = regPoly r + regPoly q := by
  rw [regPoly, regPoly, regPoly, ← Finset.sum_add_distrib]
  refine Finset.sum_congr rfl fun i _ => ?_
  rw [BitVec.getLsbD_xor]
  cases r.getLsbD i <;> cases q.getLsbD i <;> simp [CharTwo.add_self_eq_zero]

@[simp] theorem regPoly_zero : regPoly 0#16 = 0 := by simp [regPoly]

/-- A left shift multiplies by `x`, but for the bit that leaves. -/
theorem regPoly_shiftLeft (r : Crc16) :
    regPoly (r <<< 1) + (if r.getLsbD 15 then X ^ 16 else 0) = X * regPoly r := by
  have hlow (i : Nat) (hi : i ∈ Finset.range 15) :
      (if (r <<< 1).getLsbD (i + 1) then X ^ (i + 1) else 0 : (ZMod 2)[X]) =
        X * if r.getLsbD i then X ^ i else 0 := by
    have hlt : i + 1 < 16 := by have := Finset.mem_range.1 hi; omega
    rw [BitVec.getLsbD_shiftLeft, decide_eq_true hlt, mul_ite, mul_zero, pow_succ']
    rfl
  calc regPoly (r <<< 1) + (if r.getLsbD 15 then X ^ 16 else 0)
    _ = (∑ i ∈ Finset.range 15, X * if r.getLsbD i then X ^ i else 0) +
        X * (if r.getLsbD 15 then X ^ 15 else 0) := by
      rw [regPoly, Finset.sum_range_succ', Finset.sum_congr rfl hlow]
      simp [← pow_succ']
    _ = X * regPoly r := by
      rw [regPoly, Finset.sum_range_succ _ 15, mul_add, Finset.mul_sum]

theorem regPoly_poly : regPoly poly = X ^ 12 + X ^ 5 + 1 := by
  simp [regPoly, poly, Finset.sum_range_succ]
  ring

theorem regPoly_bit (b : Bool) : regPoly ((BitVec.ofBool b).setWidth 16) = bitPoly b := by
  cases b with
  | false => exact regPoly_zero
  | true => simp [regPoly, bitPoly]

/-- One shift multiplies by `x`, adds the bit, and subtracts the generator when a bit leaves. -/
theorem regPoly_shiftIn (r : Crc16) (b : Bool) :
    regPoly (shiftIn r b) =
      X * regPoly r + bitPoly b + if r.getLsbD 15 then genPoly else 0 := by
  rw [shiftIn_eq_xor, regPoly_xor, regPoly_xor, regPoly_bit, ← regPoly_shiftLeft]
  split
  · rw [regPoly_poly, genPoly]
    linear_combination -CharTwo.add_self_eq_zero (X ^ 16 : (ZMod 2)[X])
  · rw [regPoly_zero]; ring

/-- The register is congruent to the message so far, modulo the generator. -/
theorem exists_quotient (bits : List Bool) (a q : (ZMod 2)[X]) (r : Crc16)
    (h : a = q * genPoly + regPoly r) :
    ∃ q', bits.foldl (fun a b => X * a + bitPoly b) a =
      q' * genPoly + regPoly (bits.foldl shiftIn r) := by
  induction bits generalizing a q r with
  | nil => exact ⟨q, h⟩
  | cons b bits ih =>
    refine ih _ (X * q + if r.getLsbD 15 then 1 else 0) _ ?_
    rw [h, regPoly_shiftIn]
    split
    · linear_combination -CharTwo.add_self_eq_zero genPoly
    · ring

end Remainder

/-- Settles O13, by induction over the message's bits: each keeps the register congruent to the
message (`exists_quotient`). -/
theorem registerHoldsTheRemainderOfTheMessage :
    Obligations.RegisterHoldsTheRemainderOfTheMessage := by
  intro m
  obtain ⟨q, hq⟩ := exists_quotient (m.flatMap bitsMsbFirst) 0 0 0#16 (by simp)
  refine ⟨q, ?_⟩
  rw [fold_eq_foldl_shiftIn]
  exact hq

end Sys2Proof.Machine

/-! PROOFS. The statements on the step and its accesses (20_memory R30, R31; 60_exceptions R106;
70_reset R120, R127; 00_scope R2) and the invariant of the registers (10_state R14, R16, R21). -/

namespace Sys2Proof.Machine

/-! ### The registers stay consistent -/

/-- What the status bits and ERRCMD owe each other, in words (10_state R14, R16). -/
theorem consistent_iff (s : State) : s.consistent = true ↔
    (s.checked = false → s.matched = false) ∧ (s.err = false → s.errcmd = 0#32) ∧
      (s.err = true → decode s.errcmd = none) := by
  rw [State.consistent]
  cases s.checked <;> cases s.err <;> simp

/-- The error entry leaves an illegal word in ERRCMD: the first one, or this one (10_state R16). -/
theorem consistent_raiseIllegalCommand {w : Word} {s : State} (hw : decode w = none)
    (hs : s.consistent = true) : (raiseIllegalCommand w s).consistent = true := by
  obtain ⟨hcheck, -, hillegal⟩ := (consistent_iff s).1 hs
  refine (consistent_iff _).2 ⟨hcheck, nofun, fun _ => ?_⟩
  rw [raiseIllegalCommand_errcmd]
  split
  · exact hillegal ‹_›
  · exact hw

/-- A command clears both check bits, or records a CHECK, or does nothing (10_state R14). -/
theorem exec_keeps_consistent {i : Instr} {s t : State} (hs : s.consistent = true)
    (h : exec i s = .next t) : t.consistent = true := by
  obtain ⟨-, herr⟩ := (consistent_iff s).1 hs
  obtain ⟨-, rfl⟩ | ⟨-, v, rfl⟩ | ⟨u, -, rfl⟩ := exec_next h
  · exact hs
  · exact (consistent_iff _).2 ⟨fun _ => writeCrc_matched s v, herr⟩
  · exact (consistent_iff _).2 ⟨nofun, herr⟩

theorem performEvent_keeps_consistent {e : Event} {s t : State} (hs : s.consistent = true)
    (h : performEvent e s = .next t) : t.consistent = true := by
  obtain ⟨r, -, rfl⟩ | ⟨r, v, -, -, rfl⟩ | ⟨w, i, -, -, hx⟩ | ⟨w, -, hd, rfl⟩ | ⟨c, -, rfl⟩ :=
    performEvent_next h
  · exact hs
  · exact hs
  · exact exec_keeps_consistent hs hx
  · exact consistent_raiseIllegalCommand hd hs
  · rfl

/-- Settles O48: the step performs its next event (`step_next`), which keeps the registers
consistent whatever is pending. -/
theorem everyStepKeepsTheRegistersConsistent :
    Obligations.EveryStepKeepsTheRegistersConsistent := by
  intro s t hs h
  obtain ⟨e, rest, -, he⟩ := step_next h
  exact performEvent_keeps_consistent (s := { s with pending := rest }) hs he

/-- Settles O47: all five reset values are zero. -/
theorem resetStateIsConsistent : Obligations.ResetStateIsConsistent := rfl

/-- STATUS of consistent registers: MATCH is 0 or CHECKED is 1 (10_state R21). -/
theorem statusWord_mem_of_consistent {s : State} (hs : s.consistent = true) :
    statusWord s ∈ [0x0#32, 0x2#32, 0x3#32, 0x4#32, 0x6#32, 0x7#32] := by
  obtain ⟨hcheck, -⟩ := (consistent_iff s).1 hs
  rw [statusWord]
  cases hk : s.checked with
  | true => cases s.err <;> cases s.matched <;> decide
  | false => rw [hcheck hk]; cases s.err <;> decide

/-- Settles O35: the value read is STATUS, which has six values on consistent registers. -/
theorem statusReadsOnlyItsLegalValues : Obligations.StatusReadsOnlyItsLegalValues :=
  fun s hs => ⟨regRead .status s, statusWord s, runAll_rd_cons .status [] s,
    regRead_readLog s .status, statusWord_mem_of_consistent hs⟩

/-! ### Accesses that have a step, and accesses that have none -/

/-- An access with no byte in the window faults (20_memory R30). -/
theorem performAccess_outside {a : Access} (h : ¬ (a.offset < 16 ∧ 0 < a.offset + a.bytes))
    (s : State) : performAccess a s = .fault .outsideWindow :=
  if_neg (mt (touchesWindow_iff a).1 h)

/-- Another master's access that touches the window is refused (00_scope R2). -/
theorem performAccess_other {id : Nat} {off : Int} {n : Nat} {k : AccessKind}
    (h : off < 16 ∧ 0 < off + n) (s : State) :
    performAccess ⟨.other id, off, n, k⟩ s = .refused .secondMaster :=
  if_pos ((touchesWindow_iff _).2 h)

/-- The host's access that touches the window and is not admitted is refused (20_memory R31). -/
theorem performAccess_not_admitted {off : Int} {n : Nat} {k : AccessKind}
    (h : off < 16 ∧ 0 < off + n)
    (ha : ¬ (n = 4 ∧ (off = 0x0 ∨ off = 0x4 ∨ off = 0x8 ∨ off = 0xC))) (s : State) :
    performAccess ⟨.host, off, n, k⟩ s = .refused .accessNotAdmitted :=
  (if_pos ((touchesWindow_iff _).2 h)).trans (if_neg (mt (admitted_iff _).1 ha))

/-- Settles O40: the access is admitted, so it completes and leaves the events still pending. -/
theorem everyAdmittedAccessCompletes : Obligations.EveryAdmittedAccessCompletes := by
  refine ⟨fun s off k rest hoff hp => ?_, fun s => step_nil⟩
  have hadmitted : (Event.access ⟨.host, off, 4, k⟩).isAdmitted = true :=
    (admitted_iff _).2 ⟨rfl, hoff⟩
  obtain ⟨t, ht⟩ := performEvent_completes (.inl hadmitted) { s with pending := rest }
  exact ⟨t, (step_cons hp).trans ht, (performEvent_pending ht []).1⟩

/-- Settles O41: four bytes at a multiple of 4 are what an admitted access has. -/
theorem accessNotAdmittedHasNoStep : Obligations.AccessNotAdmittedHasNoStep := by
  intro s off n k rest hp hlt hpos hn
  rw [step_cons hp]
  exact performAccess_not_admitted ⟨hlt, hpos⟩ (by omega) _

/-- Settles O42: the base is a multiple of 4, and offset bits [3:2] are read for each of the 16
offsets. -/
theorem windowStandsAtCrcBase : Obligations.WindowStandsAtCrcBase := by
  refine ⟨Nat.mul_mod_right 4 _, fun m k n a => ?offset, by decide,
    fun s addr n m a rest hp hout => ?outside⟩
  case offset => simp [Access.ofBus]
  case outside =>
    rw [step_cons hp]
    refine performAccess_outside ?_ _
    simp only [Access.ofBus]
    omega

/-- Settles O43: of the events with a next state only a reset and the host's write of CMD touch the
checker. -/
theorem onlyCommandWritesAndResetsChangeTheChecker :
    Obligations.OnlyCommandWritesAndResetsChangeTheChecker := by
  refine ⟨fun s t e rest hp hs hreset hwrite => ?_, fun s id off n k rest hp hlt hpos => ?_⟩
  · rw [step_cons hp] at hs
    obtain ⟨r, -, rfl⟩ | ⟨r, v, -, -, rfl⟩ | ⟨w, i, he, -⟩ | ⟨w, he, -⟩ | ⟨c, he, -⟩ :=
      performEvent_next hs
    · exact ⟨rfl, rfl, rfl, rfl, rfl, rfl⟩
    · exact ⟨rfl, rfl, rfl, rfl, rfl, rfl⟩
    · exact absurd he (hwrite w)
    · exact absurd he (hwrite w)
    · exact absurd he (hreset c)
  · rw [step_cons hp]
    exact performAccess_other ⟨hlt, hpos⟩ { s with pending := rest }

/-- Settles O29: the step issues the word, and a legal word is its command. -/
theorem stepRunsTheDecodedCommand : Obligations.StepRunsTheDecodedCommand := by
  intro s w i rest hp hd
  rw [step_cons hp, performEvent_cmdWrite, issueCommand_of_legal hd]

/-! ### Reset -/

/-- Settles O45: the step performs the reset. -/
theorem resetZeroesTheChecker : Obligations.ResetZeroesTheChecker :=
  ⟨⟨rfl, rfl, rfl, rfl, rfl⟩, fun _ c _ hp => (step_cons hp).trans (performEvent_reset c _)⟩

/-- Settles O46: the reset comes first, and each read after it returns a register of zeros. -/
theorem registersReadZeroAfterReset : Obligations.RegistersReadZeroAfterReset := by
  intro s c
  rw [runAll_cons (performEvent_reset c s), runAll_rd_cons, runAll_rd_cons, runAll_rd_cons]
  refine ⟨_, runAll_nil _, ?_⟩
  simp [readValue, statusWord, flagWord]

/-- Settles O24: INIT writes what reset left, and FINISH folds the two zero bytes into each of the
five values. -/
theorem commandExamplesTheRulesDerive : Obligations.CommandExamplesTheRulesDerive := by
  refine ⟨exec_init _, fun s c r hc hmem => ⟨_, exec_finish s, ?_⟩⟩
  rw [writeCrc_crc, hc]
  simp only [List.mem_cons, Prod.mk.injEq, List.not_mem_nil, or_false] at hmem
  obtain ⟨rfl, rfl⟩ | ⟨rfl, rfl⟩ | ⟨rfl, rfl⟩ | ⟨rfl, rfl⟩ | ⟨rfl, rfl⟩ := hmem
  all_goals decide +kernel

end Sys2Proof.Machine

/-! PROOFS. The statements on the frame check (41_frame_check R84 to R89), the pseudo-commands
(30_encoding R55) and a saved CRC (40_crc_ops R67): first as lists of commands, then as the host's
accesses with others in between (70_reset R122, R124). -/

namespace Sys2Proof.Machine

/-! ### Lists of commands -/

/-- The first list executes, then the second from its next state. -/
theorem execAll_append {is : List Instr} {s t : State} (h : execAll is s = .next t)
    (js : List Instr) : execAll (is ++ js) s = execAll js t := by
  induction is generalizing s with
  | nil => cases h; rfl
  | cons i is ih =>
    obtain ⟨u, hu⟩ := exec_completes i s
    rw [execAll_cons hu] at h
    rw [List.cons_append, execAll_cons hu, ih h]

theorem execAll_completes (is : List Instr) (s : State) : ∃ t, execAll is s = .next t := by
  induction is generalizing s with
  | nil => exact ⟨s, rfl⟩
  | cons i is ih =>
    obtain ⟨u, hu⟩ := exec_completes i s
    rw [execAll_cons hu]
    exact ih u

/-- The UPDATEs of a message and a FINISH are one write of CRC, whatever the check bits were. -/
theorem execAll_feed_finish (p : List Byte) (is : List Instr) (s : State) :
    execAll (feed p ++ .finish :: is) s =
      execAll is (writeCrc (fold s.crc (p ++ augment)) s) := by
  cases p with
  | nil => exact execAll_cons (exec_finish s)
  | cons b p =>
    rw [execAll_append (execAll_feed_cons b p s), execAll_cons (exec_finish _), writeCrc_writeCrc,
      writeCrc_crc, ← fold_append]

/-- Settles O52: FEED is at most one write of CRC, COMPUTE is INIT and `execAll_feed_finish`, and
CHECKFRAME is `execAll_checkFrame`. -/
theorem pseudoCommandsComputeAndCheck : Obligations.PseudoCommandsComputeAndCheck := by
  refine ⟨fun d s => ?feed, fun d s => ?compute, execAll_checkFrame⟩
  case feed =>
    cases d with
    | nil => rfl
    | cons b d => exact execAll_feed_cons b d s
  case compute =>
    rw [computeCommands, List.cons_append, execAll_cons (exec_init s), execAll_feed_finish,
      writeCrc_writeCrc]
    rfl

/-- Settles O53: MATCH is the comparison of the residue with 0 in one form and the frame's verdict
in the other, which agree (`residue_eq_zero_iff`). -/
theorem residueCheckAgreesWithCanonicalCheck :
    Obligations.ResidueCheckAgreesWithCanonicalCheck := by
  intro p hi lo s
  refine ⟨_, _, execAll_residueCheck p hi lo s, execAll_checkFrame p hi lo s, ?_, rfl, rfl,
    residue_eq_zero_iff p hi lo⟩
  rw [recordCheck_matched, recordCheck_matched, Bool.eq_iff_iff, beq_iff_eq]
  exact residue_eq_zero_iff p hi lo

/-- Settles O54: the sender's bytes are the frame's CRC, and a flip changes it. -/
theorem senderFramePassesAndFlippedFrameFails :
    Obligations.SenderFramePassesAndFlippedFrameFails := fun p s =>
  ⟨frameCrcOk_sender p, ⟨_, execAll_checkFrame p _ _ s, frameCrcOk_sender p, rfl⟩,
    fun i j hi hj => ⟨_, execAll_checkFrame (flipBit p i j) _ _ s,
      frameCrcOk_flipBit hi hj (frameCrcOk_sender p), rfl⟩⟩

/-! ### A saved CRC -/

/-- FEED folds its bytes into CRC and leaves what the host has read, empty or not. -/
theorem execAll_feed_crc (d : List Byte) (s : State) :
    ∃ t, execAll (feed d) s = .next t ∧ t.crc = fold s.crc d ∧ t.readLog = s.readLog := by
  cases d with
  | nil => exact ⟨s, rfl, rfl, rfl⟩
  | cons b d => exact ⟨_, execAll_feed_cons b d s, writeCrc_crc s _, writeCrc_readLog s _⟩

/-- After the host's writes of some commands, the events that follow run from the commands' result.
-/
theorem runAll_commandEvents_append {is : List Instr} {s t : State} (h : execAll is s = .next t)
    (es : List Event) : runAll (commandEvents is ++ es) s = runAll es t := by
  induction is generalizing s with
  | nil => cases h; rfl
  | cons i is ih =>
    obtain ⟨u, hu⟩ := exec_completes i s
    rw [execAll_cons hu] at h
    rw [← ih h]
    exact runAll_cons ((performEvent_cmdWrite_encode i s).trans hu)

/-- Settles O56: the value read is the CRC the first bytes left, and the later bytes fold on from
it. -/
theorem loadResumesASavedCrc : Obligations.LoadResumesASavedCrc := by
  intro d1 d2 s
  obtain ⟨t, ht, hcrc, hlog⟩ := execAll_feed_crc d1 s
  refine ⟨regRead .crc t, readValue .crc t, ?run, ?log, fun u => ?resume⟩
  case run => rw [runAll_commandEvents_append ht, runAll_rd_cons, runAll_nil]
  case log => rw [regRead_readLog, hlog]
  case resume =>
    obtain ⟨u', hu', hcrc', -⟩ := execAll_feed_crc d2 (writeCrc (fold s.crc d1) u)
    rw [readValue_crc_low, hcrc, execAll_cons (exec_load _ u)]
    exact ⟨u', hu', by rw [hcrc', writeCrc_crc, fold_append]⟩

/-! ### The frame check as commands -/

/-- From an empty register, the bytes, FINISH and CHECK record the frame's verdict. -/
theorem execAll_frameBody {s : State} (hs : s.crc = initValue) (p : List Byte) (hi lo : Byte) :
    execAll (feed p ++ [.finish, .check (wireCrc hi lo)]) s =
      .next (recordCheck (frameCrcOk p hi lo) (writeCrc (compute p) s)) := by
  have hcompute : fold s.crc (p ++ augment) = compute p := by rw [hs, compute]
  rw [execAll_feed_finish, hcompute]
  exact execAll_cons (exec_check _ _)

/-- A check with any of the three starts ends like the canonical one (70_reset R122, R124). -/
theorem execAll_frameCheckFrom {st : FrameStart} {s : State}
    (hst : st = .afterReset → s.crc = 0x0000#16) (p : List Byte) (hi lo : Byte) :
    execAll (frameCheckFrom st p hi lo) s =
      .next (recordCheck (frameCrcOk p hi lo) (writeCrc (compute p) s)) := by
  have hsplit : frameCheckFrom st p hi lo =
      st.commands ++ (feed p ++ [.finish, .check (wireCrc hi lo)]) := by
    simp [frameCheckFrom, checkWire]
  rw [hsplit]
  cases st with
  | init => exact (execAll_cons (exec_init s)).trans (execAll_frameBody (writeCrc_crc s _) p hi lo)
  | loadZero =>
    exact (execAll_cons (exec_load _ s)).trans (execAll_frameBody (writeCrc_crc s _) p hi lo)
  | afterReset => exact execAll_frameBody (hst rfl) p hi lo

/-! ### Harmless accesses in between -/

/-- Two states agree on what commands read and write: CRC, MATCH and CHECKED (40_crc_ops R71). -/
def AgreeOnCheck (s t : State) : Prop :=
  s.crc = t.crc ∧ s.matched = t.matched ∧ s.checked = t.checked

protected theorem AgreeOnCheck.refl (s : State) : AgreeOnCheck s s := ⟨rfl, rfl, rfl⟩

/-- A command keeps two states in agreement. -/
theorem exec_agree {i : Instr} {s s' t t' : State} (hs : AgreeOnCheck s s')
    (h : exec i s = .next t) (h' : exec i s' = .next t') : AgreeOnCheck t t' := by
  obtain ⟨hcrc, hmatched, hchecked⟩ := hs
  cases i with
  | nop => cases h; cases h'; exact ⟨hcrc, hmatched, hchecked⟩
  | init | load => cases h; cases h'; exact ⟨rfl, rfl, rfl⟩
  | update | finish =>
    cases h; cases h'
    refine ⟨?_, rfl, rfl⟩
    rw [writeCrc_crc, writeCrc_crc, hcrc]
  | check t =>
    cases h; cases h'
    refine ⟨hcrc, ?_, rfl⟩
    rw [recordCheck_matched, recordCheck_matched, hcrc]

/-- A legal word counts as its command: NOP, which `commandOfWord` leaves out, does nothing. -/
theorem execAll_commandOfWord {w : Word} {i : Instr} (h : decode w = some i) (s : State) :
    execAll (commandOfWord w).toList s = exec i s := by
  rw [commandOfWord, h]
  cases i <;> rfl

theorem commandOfWord_of_illegal {w : Word} (h : decode w = none) : commandOfWord w = none := by
  rw [commandOfWord, h]
  rfl

theorem commandsOf_cons (e : Event) (es : List Event) :
    commandsOf (e :: es) = e.command?.toList ++ commandsOf es := by
  cases h : e.command? <;> simp [commandsOf, h]

theorem illegalWordsOf_cons (e : Event) (es : List Event) :
    illegalWordsOf (e :: es) = e.illegalWord?.toList ++ illegalWordsOf es := by
  cases h : e.illegalWord? <;> simp [illegalWordsOf, h]

/-- What an admitted access does to the checker: it does to CRC, MATCH and CHECKED what the command
it counts as does, and sets ERR if its word is illegal. -/
theorem performEvent_admitted {e : Event} (he : e.isAdmitted = true) {s t s' u : State}
    (hs : AgreeOnCheck s s') (ht : performEvent e s = .next t)
    (hu : execAll e.command?.toList s' = .next u) :
    AgreeOnCheck t u ∧ t.err = (s.err || e.illegalWord?.isSome) := by
  obtain ⟨r, rfl, rfl⟩ | ⟨r, v, rfl, hr, rfl⟩ | ⟨w, i, rfl, hd, hx⟩ | ⟨w, rfl, hd, rfl⟩ |
    ⟨c, rfl, rfl⟩ := performEvent_next ht
  · rw [command?_rd] at hu
    cases hu
    exact ⟨hs, by simp⟩
  · rw [command?_wr hr] at hu
    cases hu
    exact ⟨hs, by simp [illegalWord?_wr hr]⟩
  · rw [command?_cmdWrite, execAll_commandOfWord hd] at hu
    exact ⟨exec_agree hs hx hu, by simp [hd, exec_keeps_err hx]⟩
  · rw [command?_cmdWrite, commandOfWord_of_illegal hd] at hu
    cases hu
    exact ⟨hs, by simp [hd]⟩
  · cases he

/-- A sequence of admitted accesses does to CRC, MATCH and CHECKED what its commands do one after
the other, and sets ERR if a word in it is illegal: a simulation, access by access. -/
theorem runAll_admitted {es : List Event} (hes : ∀ e ∈ es, e.isAdmitted = true) {s s' u : State}
    (hs : AgreeOnCheck s s') (hu : execAll (commandsOf es) s' = .next u) :
    ∃ t, runAll es s = .next t ∧ AgreeOnCheck t u ∧
      t.err = (s.err || !(illegalWordsOf es).isEmpty) ∧ t.pending = s.pending := by
  induction es generalizing s s' with
  | nil => cases hu; exact ⟨s, rfl, hs, by simp [illegalWordsOf], rfl⟩
  | cons e es ih =>
    obtain ⟨he, hes⟩ := List.forall_mem_cons.1 hes
    obtain ⟨t, ht⟩ := performEvent_completes (.inl he) s
    obtain ⟨t', ht'⟩ := execAll_completes e.command?.toList s'
    rw [commandsOf_cons, execAll_append ht'] at hu
    obtain ⟨hagree, herr⟩ := performEvent_admitted he hs ht ht'
    obtain ⟨x, hx, hxu, hxerr, hxpending⟩ := ih hes hagree hu
    refine ⟨x, (runAll_cons ht).trans hx, hxu, ?_, hxpending.trans (performEvent_pending ht []).1⟩
    rw [hxerr, herr, illegalWordsOf_cons]
    cases e.illegalWord? <;> simp

/-- Settles O51: the accesses do what their commands do (`runAll_admitted`), and these are a frame
check (`execAll_frameCheckFrom`). -/
theorem canonicalFrameCheckReportsFrameCrcOk :
    Obligations.CanonicalFrameCheckReportsFrameCrcOk := by
  intro st p hi lo es s hst hes hcommands
  have hcheck := execAll_frameCheckFrom hst p hi lo
  rw [← hcommands] at hcheck
  obtain ⟨t, ht, ⟨hcrc, hmatched, hchecked⟩, herr, hpending⟩ :=
    runAll_admitted hes (.refl s) hcheck
  exact ⟨t, ht, hcrc, hchecked, hmatched, herr, hpending⟩

/-- Settles O55: after the frame check CHECKED is 1 and MATCH is the frame's verdict, so the host
takes the frame exactly when the verdict is good and ERR was and is clear. -/
theorem validatedFramesAreRightAndUndisturbed :
    Obligations.ValidatedFramesAreRightAndUndisturbed := by
  intro st p hi lo es s hst hes hcommands
  obtain ⟨t, ht, -, hchecked, hmatched, herr, -⟩ :=
    canonicalFrameCheckReportsFrameCrcOk st p hi lo es s hst hes hcommands
  refine ⟨t, ht, ?_⟩
  rw [frameValidated, hmatched, hchecked, herr]
  cases s.err <;> cases frameCrcOk p hi lo <;> simp

end Sys2Proof.Machine
